-- ==== Sys2Proof/Word.lean ====
section
/-! DEFINITION. The words of KCS-CORE: a register, a byte of data, a key operand (`00_scope.md` R8, R9; `10_state.md` R25). -/

namespace Sys2Proof

/-- The width of a control and status register and of a command word (`10_state.md` R25, `30_encoding.md` R70). -/
abbrev Word := BitVec 32

/-- A byte value, the atomic unit of all transforms (`00_scope.md` R9). -/
abbrev Byte := BitVec 8

/-- An unsigned operand of KW = 16 bits: a key slot KEY[i], or the IMM16 field of a command (`00_scope.md` R8). -/
abbrev Imm16 := BitVec 16

end Sys2Proof
end

