-- ==== Sys2Proof/Syntax.lean ====
section
/-! DEFINITION. The commands of KCS-CORE, one constructor per row of spec/opcode_table.json (`30_encoding.md` R76). -/

namespace Sys2Proof

/-- A command. The operand is the IMM16 field as it stands, any 16-bit value (`30_encoding.md` R74, R75, R80): the seed in
format K, the partition count N in format N. -/
inductive Instr where
  /-- `XA key`: variant A (`43_single_key_engine.md` R122). -/
  | xa (seed : Imm16)
  /-- `XB.E key`: variant B, encrypt (R124). -/
  | xbE (seed : Imm16)
  /-- `XB.D key`: variant B, decrypt (R125). -/
  | xbD (seed : Imm16)
  /-- `XC.E key`: variant C, encrypt (R127). -/
  | xcE (seed : Imm16)
  /-- `XC.D key`: variant C, decrypt (R128). -/
  | xcD (seed : Imm16)
  /-- `XM.E n`: multi-key, encrypt (`44_multi_key_engine.md` R149). -/
  | xmE (n : Imm16)
  /-- `XM.D n`: multi-key, decrypt (R150). -/
  | xmD (n : Imm16)
  deriving DecidableEq, Repr

end Sys2Proof
end

