-- ==== Sys2Proof/Decode.lean ====
section
/-! DEFINITION. The command word: its fields, the decoder, total on all 2^32 words and rejecting by name, and the encoder
(`30_encoding.md` R70 to R78). A command word is the data of a write to CMD, a number: no byte order enters (`20_memory.md` R51, R62). -/

namespace Sys2Proof

/-- Why a word is no command (`30_encoding.md` R77). All three end with ILLEGAL_CMD; which is named when several hold is
DESIGN CHOICE (log 18) and no state records it. -/
inductive IllegalWord where
  /-- ZERO, bits 15:5, is not 0. -/
  | zeroField
  /-- OP is 0 or 5 to 15. -/
  | opcode
  /-- OP is 1 and M is 1: XA has no mode (R73). -/
  | xaMode
  deriving DecidableEq, Repr

/-- OP, bits 3:0 (`30_encoding.md` R71). -/
def opField (w : Word) : BitVec 4 := w.extractLsb' 0 4

/-- M, bit 4 (R71). -/
def modeBit (w : Word) : BitVec 1 := w.extractLsb' 4 1

/-- ZERO, bits 15:5 (R71). -/
def zeroField (w : Word) : BitVec 11 := w.extractLsb' 5 11

/-- IMM16, bits 31:16, taken as it stands (R71, R74, R75). -/
def immField (w : Word) : Imm16 := w.extractLsb' 16 16

/-- The command a word stands for, or why it is illegal (`30_encoding.md` R72, R73, R77). -/
def decode (w : Word) : Except IllegalWord Instr :=
  if zeroField w ≠ 0 then .error .zeroField
  else match (opField w).toNat, (modeBit w).toNat with
    | 1, 0 => .ok (.xa (immField w))
    | 1, _ => .error .xaMode
    | 2, 0 => .ok (.xbE (immField w))
    | 2, _ => .ok (.xbD (immField w))
    | 3, 0 => .ok (.xcE (immField w))
    | 3, _ => .ok (.xcD (immField w))
    | 4, 0 => .ok (.xmE (immField w))
    | 4, _ => .ok (.xmD (immField w))
    | _, _ => .error .opcode

/-- The word with the given fields and ZERO = 0 (`30_encoding.md` R71). -/
def assemble (imm : Imm16) (m : BitVec 1) (op : BitVec 4) : Word := imm ++ 0#11 ++ m ++ op

/-- The word of a command (`30_encoding.md` R76, R80). -/
def encode : Instr → Word
  | .xa k => assemble k 0 1
  | .xbE k => assemble k 0 2
  | .xbD k => assemble k 1 2
  | .xcE k => assemble k 0 3
  | .xcD k => assemble k 1 3
  | .xmE n => assemble n 0 4
  | .xmD n => assemble n 1 4

/-- The word whose low `nbits` bits are those of `w`, every bit above them 0 (`30_encoding.md` R70: every command is one 32-bit
word). -/
def tableWord (nbits w : Nat) : Word := BitVec.ofNat 32 (w % 2 ^ nbits)

/-- What the decoder reads from a command of `nbits` bits, numbered as spec/opcode_table.json numbers them. No command is longer
than 32 bits (R70). -/
def decodeTableWord (nbits w : Nat) : Option Instr :=
  if nbits ≤ 32 then
    match decode (tableWord nbits w) with
    | .ok i => some i
    | .error _ => none
  else none

end Sys2Proof
end

