-- ==== Sys2Proof/Machine/BitPermuter.lean ====
section
/-! DEFINITION. The Bit Permuter (`42_bit_permuter.md`). -/

namespace Sys2Proof.Machine

/-- SWP: the two bits of each pair (7,6), (5,4), (3,2), (1,0) exchanged (`42_bit_permuter.md` R110, in its mask form). -/
def swp (b : Byte) : Byte := ((b &&& 0xAA#8) >>> 1) ||| ((b &&& 0x55#8) <<< 1)

end Sys2Proof.Machine
end

