-- ==== Sys2Proof/Machine/Mode.lean ====
section
/-! DEFINITION. The mode and the variant of a stream (`00_scope.md` R11; `43_single_key_engine.md` R120). -/

namespace Sys2Proof.Machine

/-- "an enumeration {encrypt, decrypt}", written E and D (`00_scope.md` R11). -/
inductive Mode where
  | e
  | d
  deriving DecidableEq, Repr

/-- The three variants of the Single-Key Cipher Engine (`43_single_key_engine.md` R121, R123, R126). -/
inductive Variant where
  | a
  | b
  | c
  deriving DecidableEq, Repr

end Sys2Proof.Machine
end

