-- ==== Sys2Proof/Machine/KeyScheduler.lean ====
section
/-! DEFINITION. The Key Scheduler (`41_key_scheduler.md`). -/

namespace Sys2Proof.Machine

/-- SQ8: the low 8 bits of the exact product of `k` with itself (`41_key_scheduler.md` R100). -/
def sq8 (k : Byte) : Byte := BitVec.ofNat 8 (k.toNat * k.toNat)

/-- The test on the squared value that triggers recovery (`41_key_scheduler.md` R102; `90_conflicts.md` C4). -/
def degenerate (ksq : Byte) : Bool := decide (ksq = 0 ∨ ksq = 1)

/-- ADVANCE: the next working key after a step that consumed `x` and emitted `y` under key `k` (`41_key_scheduler.md` R102). -/
def advance (k x y : Byte) (m : Mode) : Byte :=
  if degenerate (sq8 k) then
    match m with
    | .e => x
    | .d => y
  else sq8 k

end Sys2Proof.Machine
end

