-- ==== Sys2Proof/Machine/Flags.lean ====
section
/-! DEFINITION. STATUS, the only flags of the hardware (`10_state.md` R27), and the causes of InvalidInput (`60_exceptions.md` R162). -/

namespace Sys2Proof.Machine

/-- The causes of the one error kind, InvalidInput (`60_exceptions.md` R160, R162). -/
inductive Cause where
  /-- The command word is illegal (R161). -/
  | illegalCmd
  /-- INLEN > LMAX (R163). -/
  | lenRange
  /-- N = 0, N > NMAX or N ≠ KCNT (R165). -/
  | keyCount
  /-- A key operand exceeds 255 (R164). -/
  | keyRange
  deriving DecidableEq, Repr

/-- STATUS.ECODE of a cause (`60_exceptions.md` R162). -/
def Cause.code : Cause → BitVec 4
  | .illegalCmd => 1
  | .lenRange => 2
  | .keyCount => 3
  | .keyRange => 4

/-- STATUS.DONE, bit 0 (`10_state.md` R27). -/
def statusDone (w : Word) : Bool := w.getLsbD 0

/-- STATUS.ERR, bit 1. -/
def statusErr (w : Word) : Bool := w.getLsbD 1

/-- STATUS.ECODE, bits 7:4. -/
def statusEcode (w : Word) : BitVec 4 := w.extractLsb' 4 4

/-- STATUS with the given fields, bits 3:2 and 31:8 zero (`10_state.md` R27). -/
def statusWord (done err : Bool) (ecode : BitVec 4) : Word :=
  0#24 ++ ecode ++ 0#2 ++ BitVec.ofBool err ++ BitVec.ofBool done

/-- STATUS after a command that succeeded: DONE = 1, ERR = 0, ECODE = 0 (`43_single_key_engine.md` R122). -/
def statusSuccess : Word := statusWord true false 0

/-- STATUS after a command that ended with InvalidInput: DONE = 1, ERR = 1, ECODE = the cause (`60_exceptions.md` R166). -/
def statusFailure (c : Cause) : Word := statusWord true true c.code

end Sys2Proof.Machine
end

