-- ==== Sys2Proof/Config.lean ====
section
/-! DEFINITION. What an implementation fixes: LMAX, NMAX, TAIL_POLICY (`00_scope.md` R5, R6, R7). The model takes them as an
argument, carried by State's field `cfg` (log 1); nothing else of the spec is left to an implementation. -/

namespace Sys2Proof

/-- What the interleave does with the bytes of an incomplete last round (`00_scope.md` R7; `90_conflicts.md` C1). -/
inductive TailPolicy where
  | drop
  | keep
  deriving DecidableEq, Repr

/-- The parameters of one engine (`10_state.md` R35: configuration, fixed for a given engine). -/
structure Config where
  /-- LMAX: capacity in bytes of IN and of OUT (R5). -/
  lmax : Nat
  /-- NMAX: number of lanes and of key slots (R6). -/
  nmax : Nat
  /-- TAIL_POLICY (R7). -/
  tail : TailPolicy
  deriving DecidableEq, Repr

end Sys2Proof
end

