-- ==== Sys2Proof/Machine/Access.lean ====
section
/-! DEFINITION. What the outside world does to the engine: the host's accesses, one whole element each, and the platform's
reset (`20_memory.md` R50 to R54; `70_reset_and_hazards.md` R180), and what a read returns. -/

namespace Sys2Proof.Machine

/-- The four index spaces (`20_memory.md` R50). -/
inductive Space where
  | csr
  | key
  | input
  | output
  deriving DecidableEq, Repr

/-- The one access width of a space, in bits (`20_memory.md` R50, R52). -/
def Space.width : Space → Nat
  | .csr => 32
  | .key => 16
  | .input => 8
  | .output => 8

/-- One access of the host, or a reset. An index is an element number (`20_memory.md` R50). -/
inductive Access where
  /-- `RD CSR[n]`. -/
  | rdCsr (n : Nat)
  /-- `WR CSR[n], v`; number 0 is CMD, whose write executes a command (`10_state.md` R26). -/
  | wrCsr (n : Nat) (v : Word)
  /-- `RD KEY[i]`. -/
  | rdKey (i : Nat)
  /-- `WR KEY[i], v`. -/
  | wrKey (i : Nat) (v : Imm16)
  /-- `RD IN[j]`. -/
  | rdIn (j : Nat)
  /-- `WR IN[j], v`. -/
  | wrIn (j : Nat) (v : Byte)
  /-- `RD OUT[j]`. -/
  | rdOut (j : Nat)
  /-- `WR OUT[j], v`: ignored (`10_state.md` R36). -/
  | wrOut (j : Nat) (v : Byte)
  /-- An access of `bits` bits at an element of `sp`, narrower or wider than the element (`20_memory.md` R52). -/
  | otherWidth (sp : Space) (index bits : Nat)
  /-- An access to a space that is none of the four (`20_memory.md` R59). -/
  | otherSpace (id index : Nat)
  /-- The platform resets the engine between two accesses (`70_reset_and_hazards.md` R180). -/
  | reset
  deriving DecidableEq, Repr

/-- What a read returns: one whole element (`20_memory.md` R52). -/
inductive Reply where
  | word (v : Word)
  | slot (v : Imm16)
  | byte (v : Byte)
  deriving DecidableEq, Repr

end Sys2Proof.Machine
end

