-- ==== Sys2Proof/Machine/Params.lean ====
section
/-! DEFINITION. The parameters of the engine that State.reset describes. Every statement is made for every configuration; these
three numbers serve runs and tests only (log 2). -/

namespace Sys2Proof.Machine

/-- LMAX of `State.reset`. DESIGN CHOICE (log 2): R5 gives no default; 16 is the least value the spec's vectors need. -/
def referenceLmax : Nat := 16

/-- NMAX of `State.reset`: the spec's default (`00_scope.md` R6). -/
def referenceNmax : Nat := 8

/-- TAIL_POLICY of `State.reset`: the spec's default (`00_scope.md` R7). -/
def referenceTail : TailPolicy := .drop

/-- The configuration of `State.reset`. -/
def referenceConfig : Config := { lmax := referenceLmax, nmax := referenceNmax, tail := referenceTail }

end Sys2Proof.Machine
end

