-- ==== Sys2Proof/Machine/State.lean ====
section
/-! DEFINITION. The state of KCS-CORE (`10_state.md`), its value after reset, its named field updates, and the reasons a step
can stop. -/

namespace Sys2Proof.Machine

/-- A file of elements of `w` bits by index, sparse: (index, value) pairs in the canonical form of `Cells.wf` (Ops.lean). With
`w = 8` it is a list of `Host.Cell`. Log 17. -/
abbrev Cells (w : Nat) := List (Nat × BitVec w)

/-- A buffer of bytes, IN or OUT. -/
abbrev Memory := List Host.Cell

/-- The whole state (`10_state.md` R20), and three fields of the model's own: `cfg` (log 1), `pending` (log 3) and `replies`
(log 4). CMD is not stored (R26); K, X, Y, POS and the lane outputs are local to a command (R33, R34). -/
structure State where
  /-- LMAX, NMAX, TAIL_POLICY: the configuration, no state of the hardware (R35); no step changes it. -/
  cfg : Config
  /-- CSR 1, STATUS (R27). -/
  status : Word
  /-- CSR 2, INLEN (R28). -/
  inlen : Word
  /-- CSR 3, OUTLEN (R29). -/
  outlen : Word
  /-- CSR 4, KCNT (R30). -/
  kcnt : Word
  /-- KEY, the key slot file (R21). -/
  key : Cells 16
  /-- IN, the input buffer (R31). -/
  inBuf : Memory
  /-- OUT, the output buffer behind the read gate (R32). -/
  outBuf : Memory
  /-- The accesses the host has issued and the engine has not served, oldest first (`20_memory.md` R58). -/
  pending : List Access
  /-- What the host's reads returned, newest first. -/
  replies : List Reply
  deriving DecidableEq, Repr

/-- Why the machine stops with a fault: never. `60_exceptions.md` R169: the engine "has no fatal state, cannot hang and cannot
be left half-done"; its one error kind, InvalidInput, is a next state (R166). Nothing raises a fault; that is the spec's own
word, neither safe nor unsafe (log 20). -/
inductive Fault
  deriving DecidableEq, Repr

/-- Why a step has no meaning. -/
inductive Refusal where
  /-- An instruction the model gives no meaning: raised by exec's refused arms only, of which there is none. Safe. -/
  | notModelled (mnemonic : String)
  /-- The host reached for an element that does not exist: raised by `serve` (Serve.lean) on an access to a CSR number above 4,
  a KEY index of NMAX or more, an IN or OUT index of LMAX or more (`20_memory.md` R59: "The engine does not answer it"). Safe:
  the model stops where a platform may go on (log 8). -/
  | noSuchElement (sp : Space) (index : Nat)
  /-- The host reached for a space that is none of the four: raised by `serve` (`20_memory.md` R59). Safe (log 8). -/
  | noSuchSpace (id : Nat)
  /-- An access narrower or wider than its element: raised by `serve` (`20_memory.md` R52: "the model refuses it"). Safe (log 9). -/
  | notElementWidth (sp : Space) (bits : Nat)
  deriving DecidableEq, Repr

/-- STATUS <- v. -/
def State.setStatus (s : State) (v : Word) : State := { s with status := v }

/-- INLEN <- v. -/
def State.setInlen (s : State) (v : Word) : State := { s with inlen := v }

/-- OUTLEN <- v. -/
def State.setOutlen (s : State) (v : Word) : State := { s with outlen := v }

/-- KCNT <- v. -/
def State.setKcnt (s : State) (v : Word) : State := { s with kcnt := v }

/-- The whole key slot file replaced. -/
def State.setKey (s : State) (k : Cells 16) : State := { s with key := k }

/-- The whole of IN replaced. -/
def State.setInBuf (s : State) (m : Memory) : State := { s with inBuf := m }

/-- The whole of OUT replaced. -/
def State.setOutBuf (s : State) (m : Memory) : State := { s with outBuf := m }

/-- The accesses yet to be served replaced. -/
def State.setPending (s : State) (as : List Access) : State := { s with pending := as }

/-- One more value returned to the host. -/
def State.pushReply (s : State) (r : Reply) : State := { s with replies := r :: s.replies }

/-- The state right after reset of an engine of configuration `cfg`: every bit of host-visible state is 0 (`10_state.md` R37),
nothing is pending and nothing has been read. -/
def State.resetFor (cfg : Config) : State where
  cfg := cfg
  status := 0
  inlen := 0
  outlen := 0
  kcnt := 0
  key := []
  inBuf := []
  outBuf := []
  pending := []
  replies := []

/-- The state right after reset, for the reference configuration (log 2). -/
def State.reset : State := State.resetFor referenceConfig

end Sys2Proof.Machine
end

