-- ==== Sys2Proof/Machine/Ops.lean ====
section
/-! DEFINITION. The named operations over the state: a sparse file of elements, the host's reads and writes of each space, the
writing of a sequence into OUT, success of a command, and raising InvalidInput. -/

namespace Sys2Proof.Machine

/-- What an element that no entry lists reads as: 0 (`10_state.md` R31, R37). -/
def unlisted {w : Nat} : BitVec w := 0

/-- The element at index `a`. -/
def Cells.read {w : Nat} : Cells w → Nat → BitVec w
  | [], _ => unlisted
  | (b, v) :: rest, a => if a = b then v else Cells.read rest a

/-- Element `a` set to `v`; writing the value an unlisted element reads as removes the entry. -/
def Cells.write {w : Nat} : Cells w → Nat → BitVec w → Cells w
  | [], a, v => if v = unlisted then [] else [(a, v)]
  | (b, u) :: rest, a, v =>
    if a < b then (if v = unlisted then (b, u) :: rest else (a, v) :: (b, u) :: rest)
    else if a = b then (if v = unlisted then rest else (a, v) :: rest)
    else (b, u) :: Cells.write rest a v

/-- The canonical form: indices strictly rising, each at least `lo` and below `hi`, no entry equal to what an unlisted element
reads as. -/
def Cells.wfFrom {w : Nat} (hi : Nat) : Nat → Cells w → Bool
  | _, [] => true
  | lo, (a, v) :: rest => decide (lo ≤ a) && decide (a < hi) && decide (v ≠ unlisted) && Cells.wfFrom hi (a + 1) rest

/-- A file of `n` elements in canonical form. -/
def Cells.wf {w : Nat} (n : Nat) (m : Cells w) : Bool := Cells.wfFrom n 0 m

/-- A buffer of `n` bytes in canonical form. -/
def Memory.wf (n : Nat) (m : Memory) : Bool := Cells.wf n m

/-- `MemWrite(OUT, j, 1, y)` for j = at, at + 1, ... (`20_memory.md` R57). -/
def writeSeq (m : Memory) (at' : Nat) : List Byte → Memory
  | [] => m
  | y :: ys => writeSeq (Cells.write m at' y) (at' + 1) ys

/-- `MemRead(IN, j, 1)` for j = 0, ..., n - 1 (`20_memory.md` R57). -/
def readSeq (m : Memory) (n : Nat) : List Byte := (List.range n).map (Cells.read m)

/-! ## The host's reads: none has a side effect (`10_state.md` R36); `none` is an element that does not exist (`20_memory.md` R59) -/

/-- A read of CSR number `n` (`10_state.md` R25): CMD reads 0 (R26). -/
def readCsr (s : State) (n : Nat) : Option Word :=
  match n with
  | 0 => some 0
  | 1 => some s.status
  | 2 => some s.inlen
  | 3 => some s.outlen
  | 4 => some s.kcnt
  | _ => none

/-- A read of KEY[i] (`10_state.md` R21). -/
def readKey (s : State) (i : Nat) : Option Imm16 := if i < s.cfg.nmax then some (Cells.read s.key i) else none

/-- A read of IN[j] (`10_state.md` R31). -/
def readIn (s : State) (j : Nat) : Option Byte := if j < s.cfg.lmax then some (Cells.read s.inBuf j) else none

/-- What OUT[j] shows through the gate: the byte the last command wrote there when j < OUTLEN, else 0x00 (`10_state.md` R32, D7;
log 6). -/
def outByteAt (s : State) (j : Nat) : Byte := if j < s.outlen.toNat then Cells.read s.outBuf j else 0

/-- A read of OUT[j] (`10_state.md` R32). -/
def readOut (s : State) (j : Nat) : Option Byte := if j < s.cfg.lmax then some (outByteAt s j) else none

/-! ## The host's writes, but the write to CMD (Serve.lean); `none` is an element that does not exist -/

/-- A write of `v` to CSR number `n` other than CMD: STATUS and OUTLEN ignore it, INLEN and KCNT store it as written
(`10_state.md` R27 to R30, R36). -/
def writeCsr (s : State) (n : Nat) (v : Word) : Option State :=
  match n with
  | 1 => some s
  | 2 => some (s.setInlen v)
  | 3 => some s
  | 4 => some (s.setKcnt v)
  | _ => none

/-- A write to KEY[i]: any 16-bit value is stored as written (`10_state.md` R22). -/
def writeKey (s : State) (i : Nat) (v : Imm16) : Option State :=
  if i < s.cfg.nmax then some (s.setKey (Cells.write s.key i v)) else none

/-- A write to IN[j] (`10_state.md` R31). -/
def writeIn (s : State) (j : Nat) (v : Byte) : Option State :=
  if j < s.cfg.lmax then some (s.setInBuf (Cells.write s.inBuf j v)) else none

/-- A write to OUT[j]: ignored where the element exists (`10_state.md` R32, R36). -/
def writeOut (s : State) (j : Nat) (_v : Byte) : Option State := if j < s.cfg.lmax then some s else none

/-- Reset of the engine: every piece of host-visible state at its value after reset (`70_reset_and_hazards.md` R180). The
configuration stays, and so do the model's own lists, which belong to the host (log 10). -/
def resetEngine (s : State) : State :=
  { State.resetFor s.cfg with pending := s.pending, replies := s.replies }

/-! ## How a command ends -/

/-- Raising InvalidInput, for every cause (`60_exceptions.md` R166): OUTLEN <- 0; STATUS <- DONE = 1, ERR = 1, ECODE = the
cause; nothing else is written. There is no handler and nothing to return from (R166, R170). -/
def raise (c : Cause) (s : State) : State := (s.setOutlen 0).setStatus (statusFailure c)

/-- Success of a command with result `o`: OUT[0..len(o)-1] <- o, OUTLEN <- len(o), STATUS <- DONE = 1, ERR = 0, ECODE = 0
(`43_single_key_engine.md` R122, `44_multi_key_engine.md` R149). -/
def complete (o : List Byte) (s : State) : State :=
  ((s.setOutBuf (writeSeq s.outBuf 0 o)).setOutlen (BitVec.ofNat 32 o.length)).setStatus statusSuccess

/-- A command that passed validation completes; one that did not raises the cause of the first check that failed
(`60_exceptions.md` R166, R167, R169). -/
def finish (failed : Option Cause) (o : List Byte) (s : State) : State :=
  match failed with
  | some c => raise c s
  | none => complete o s

end Sys2Proof.Machine
end

