-- ==== Sys2Proof/Machine/Operands.lean ====
section
/-! DEFINITION. The operands of a command (`20_memory.md` R55) and the checks made on them before any byte is transformed
(`60_exceptions.md` R163 to R167). -/

namespace Sys2Proof.Machine

/-- The input sequence IN[0..INLEN-1] (`10_state.md` R31, `20_memory.md` R55). -/
def inputSeq (s : State) : List Byte := readSeq s.inBuf s.inlen.toNat

/-- A key operand above 255 is no key (`10_state.md` R22, `60_exceptions.md` R164). -/
def outOfKeyRange (k : Imm16) : Bool := decide (255 < k.toNat)

/-- Bits 7:0 of a key operand: the working key it loads once it has passed the range check (`30_encoding.md` R74). -/
def keyByte (k : Imm16) : Byte := k.extractLsb' 0 8

/-- The slots KEY[0] to KEY[n-1] as they stand (`44_multi_key_engine.md` R141). -/
def keySlots (s : State) (n : Nat) : List Imm16 := (List.range n).map (Cells.read s.key)

/-- The key set of a command of `n` lanes (`44_multi_key_engine.md` R149: KEY[i][7:0]). -/
def keySet (s : State) (n : Nat) : List Byte := (keySlots s n).map keyByte

/-- The checks of a single-key command, in order (`60_exceptions.md` R167, steps 2 and 4). -/
def singleKeyCheck (seed : Imm16) (s : State) : Option Cause :=
  if s.cfg.lmax < s.inlen.toNat then some .lenRange
  else if outOfKeyRange seed then some .keyRange
  else none

/-- The checks of a multi-key command of partition count `n`, in order (`60_exceptions.md` R167, steps 2 to 4). -/
def multiKeyCheck (n : Imm16) (s : State) : Option Cause :=
  if s.cfg.lmax < s.inlen.toNat then some .lenRange
  else if n.toNat = 0 ∨ s.cfg.nmax < n.toNat ∨ n.toNat ≠ s.kcnt.toNat then some .keyCount
  else if (keySlots s n.toNat).any outOfKeyRange then some .keyRange
  else none

end Sys2Proof.Machine
end

