-- ==== Sys2Proof/Machine/SingleKey.lean ====
section
/-! DEFINITION. The Single-Key Cipher Engine (`43_single_key_engine.md`): the stream all variants share, the functions XA, XB, XC,
and the meanings of the commands XA, XB.E, XB.D, XC.E, XC.D. -/

namespace Sys2Proof.Machine

/-- OUTBYTE: the output byte of a step, from the key before its update (`43_single_key_engine.md` R121, R123, R126). -/
def outByte (v : Variant) (x k : Byte) (m : Mode) : Byte :=
  match v, m with
  | .a, _ => x ^^^ k
  | .b, _ => x ^^^ k
  | .c, .e => swp x ^^^ k
  | .c, .d => swp (x ^^^ k)

/-- NEXTKEY: the key after a step (`43_single_key_engine.md` R121, R123, R126). Variant A squares and never recovers
(`41_key_scheduler.md` R107). -/
def nextKey (v : Variant) (k x y : Byte) (m : Mode) : Byte :=
  match v with
  | .a => sq8 k
  | .b => advance k x y m
  | .c => advance k x y m

/-- STREAM(variant, s, seed, m): one output byte per input byte, strictly left to right (`43_single_key_engine.md` R120). The
working registers K, X, Y, POS are local (`10_state.md` R33); `Lane` (Lanes.lean) writes them out. -/
def stream (v : Variant) (m : Mode) : List Byte → Byte → List Byte
  | [], _ => []
  | x :: s, k => outByte v x k m :: stream v m s (nextKey v k x (outByte v x k m) m)

/-- The key each step of a stream uses, k_0 = seed first (`41_key_scheduler.md` R105). -/
def keySequence (v : Variant) (m : Mode) : List Byte → Byte → List Byte
  | [], _ => []
  | x :: s, k => k :: keySequence v m s (nextKey v k x (outByte v x k m) m)

/-- XA(s, seed): variant A has no mode (`43_single_key_engine.md` R121); `stream` ignores the one it is given. -/
def xa (s : List Byte) (seed : Byte) : List Byte := stream .a .e s seed

/-- XB(s, seed, m) (`43_single_key_engine.md` R123). -/
def xb (s : List Byte) (seed : Byte) (m : Mode) : List Byte := stream .b m s seed

/-- XC(s, seed, m) (`43_single_key_engine.md` R126). -/
def xc (s : List Byte) (seed : Byte) (m : Mode) : List Byte := stream .c m s seed

/-- The frame of the five single-key commands (`43_single_key_engine.md` R122): validate, transform IN[0..INLEN-1], write the
result. -/
def singleKey (f : List Byte → Byte → List Byte) (seed : Imm16) (s : State) : State :=
  finish (singleKeyCheck seed s) (f (inputSeq s) (keyByte seed)) s

/-- XA (`43_single_key_engine.md` R122). -/
def execXa (seed : Imm16) (s : State) : Host.Outcome State Fault Refusal := .next (singleKey xa seed s)

/-- XB.E (`43_single_key_engine.md` R124). -/
def execXbE (seed : Imm16) (s : State) : Host.Outcome State Fault Refusal := .next (singleKey (xb · · .e) seed s)

/-- XB.D (`43_single_key_engine.md` R125). -/
def execXbD (seed : Imm16) (s : State) : Host.Outcome State Fault Refusal := .next (singleKey (xb · · .d) seed s)

/-- XC.E (`43_single_key_engine.md` R127). -/
def execXcE (seed : Imm16) (s : State) : Host.Outcome State Fault Refusal := .next (singleKey (xc · · .e) seed s)

/-- XC.D (`43_single_key_engine.md` R128). -/
def execXcD (seed : Imm16) (s : State) : Host.Outcome State Fault Refusal := .next (singleKey (xc · · .d) seed s)

end Sys2Proof.Machine
end

