-- ==== Sys2Proof/Machine/MultiKey.lean ====
section
/-! DEFINITION. The Multi-Key Interleaving Engine (`44_multi_key_engine.md`): DEAL, the lanes, WEAVE, XM, and the meanings of XM.E
and XM.D. -/

namespace Sys2Proof.Machine

/-- DEAL(s, N, i): the elements of `s` whose position j satisfies j mod N = i, in increasing position (`44_multi_key_engine.md` R142). -/
def deal (s : List Byte) (n i : Nat) : List Byte :=
  (s.zipIdx.filter (fun p => decide (p.2 % n = i))).map Prod.fst

/-- The outputs o_0, ..., o_{N-1} of the lanes, lane i running variant C on its own sub-stream with its own key
(`44_multi_key_engine.md` R143, R144); in index order, which no result depends on (log 14). -/
def laneOutputs (p : List Byte) (ks : List Byte) (m : Mode) : List (List Byte) :=
  ks.zipIdx.map (fun ki => xc (deal p ks.length ki.2) ki.1 m)

/-- Round r of the lockstep walk: the r-th byte of every lane that has one, in lane order (`44_multi_key_engine.md` R146). -/
def weaveRound (os : List (List Byte)) (r : Nat) : List Byte := os.filterMap (fun o => o[r]?)

/-- How many rounds the walk makes: as many as the shortest lane output provides under DROP, as the longest under KEEP
(`44_multi_key_engine.md` R146). -/
def weaveRounds (t : TailPolicy) (os : List (List Byte)) : Nat :=
  match t with
  | .drop => (os.map List.length).min?.getD 0
  | .keep => (os.map List.length).max?.getD 0

/-- WEAVE: the interleave pass over the joined lane outputs (`44_multi_key_engine.md` R145, R146, R148). -/
def weave (t : TailPolicy) (os : List (List Byte)) : List Byte :=
  (List.range (weaveRounds t os)).flatMap (weaveRound os)

/-- XM(P, K, m) (`44_multi_key_engine.md` R140). -/
def xm (t : TailPolicy) (p : List Byte) (ks : List Byte) (m : Mode) : List Byte := weave t (laneOutputs p ks m)

/-- The frame of the two multi-key commands (`44_multi_key_engine.md` R149). -/
def multiKey (m : Mode) (n : Imm16) (s : State) : State :=
  finish (multiKeyCheck n s) (xm s.cfg.tail (inputSeq s) (keySet s n.toNat) m) s

/-- XM.E (`44_multi_key_engine.md` R149). -/
def execXmE (n : Imm16) (s : State) : Host.Outcome State Fault Refusal := .next (multiKey .e n s)

/-- XM.D (`44_multi_key_engine.md` R150). -/
def execXmD (n : Imm16) (s : State) : Host.Outcome State Fault Refusal := .next (multiKey .d n s)

end Sys2Proof.Machine
end

