-- ==== Sys2Proof/Machine/Dispatch.lean ====
section
/-! DEFINITION. The meaning of each command, one arm per constructor of Instr. -/

namespace Sys2Proof.Machine

def exec (i : Instr) (s : State) : Host.Outcome State Fault Refusal :=
  match i with
  | .xa seed => Sys2Proof.Machine.execXa seed s
  | .xbE seed => Sys2Proof.Machine.execXbE seed s
  | .xbD seed => Sys2Proof.Machine.execXbD seed s
  | .xcE seed => Sys2Proof.Machine.execXcE seed s
  | .xcD seed => Sys2Proof.Machine.execXcD seed s
  | .xmE n => Sys2Proof.Machine.execXmE n s
  | .xmD n => Sys2Proof.Machine.execXmD n s

end Sys2Proof.Machine
end

