-- ==== Sys2Proof/Machine/Serve.lean ====
section
/-! DEFINITION. Serving one host access (`20_memory.md` R50 to R59): the write to CMD decodes and executes the word to completion
(`10_state.md` R26), every other access reads or writes one element, and an access to what does not exist has no step. -/

namespace Sys2Proof.Machine

/-- The engine's response to a write of `w` to CMD: the command it stands for, or ILLEGAL_CMD (`10_state.md` R26, `30_encoding.md`
R77, `60_exceptions.md` R161). -/
def issue (w : Word) (s : State) : Host.Outcome State Fault Refusal :=
  match decode w with
  | .ok i => exec i s
  | .error _ => .next (raise .illegalCmd s)

/-- A read that returns `r`, or is refused where there is nothing to read. -/
def answer (s : State) (why : Refusal) (r : Option Reply) : Host.Outcome State Fault Refusal :=
  match r with
  | some v => .next (s.pushReply v)
  | none => .refused why

/-- A write that leads to `t`, or is refused where there is nothing to write. -/
def store (why : Refusal) (t : Option State) : Host.Outcome State Fault Refusal :=
  match t with
  | some t => .next t
  | none => .refused why

/-- One access of the host, or a reset, at a state from whose `pending` it has been taken. -/
def serve (a : Access) (s : State) : Host.Outcome State Fault Refusal :=
  match a with
  | .rdCsr n => answer s (.noSuchElement .csr n) ((readCsr s n).map .word)
  | .wrCsr n v => if n = 0 then issue v s else store (.noSuchElement .csr n) (writeCsr s n v)
  | .rdKey i => answer s (.noSuchElement .key i) ((readKey s i).map .slot)
  | .wrKey i v => store (.noSuchElement .key i) (writeKey s i v)
  | .rdIn j => answer s (.noSuchElement .input j) ((readIn s j).map .byte)
  | .wrIn j v => store (.noSuchElement .input j) (writeIn s j v)
  | .rdOut j => answer s (.noSuchElement .output j) ((readOut s j).map .byte)
  | .wrOut j v => store (.noSuchElement .output j) (writeOut s j v)
  | .otherWidth sp _ bits => .refused (.notElementWidth sp bits)
  | .otherSpace id _ => .refused (.noSuchSpace id)
  | .reset => .next (resetEngine s)

/-- The oldest access not yet served is served next (`20_memory.md` R58); with none, the engine waits and nothing changes
(`70_reset_and_hazards.md` R181; log 3). -/
def serveNext (s : State) : Host.Outcome State Fault Refusal :=
  match s.pending with
  | [] => .next s
  | a :: rest => serve a (s.setPending rest)

/-- The host's next access is a write of the word to CMD: what a "fetch" is on a machine whose command is the data of a host
write (`10_state.md` R24; log 5). -/
def issueNext (s : State) (nbits w : Nat) : State := s.setPending (.wrCsr 0 (tableWord nbits w) :: s.pending)

end Sys2Proof.Machine
end

