-- ==== Sys2Proof/Machine/Step.lean ====
section
/-! DEFINITION. One step: one host access served, atomically (`70_reset_and_hazards.md` R186). -/

namespace Sys2Proof.Machine

/-- One step of the machine. -/
def step : State → Host.Outcome State Fault Refusal := serveNext

/-- `s` with a write of the given word to CMD as the host's next access, so that the next step runs it (log 5). -/
def State.withFetchWord (s : State) (nbits w : Nat) : State := issueNext s nbits w

end Sys2Proof.Machine
end

