-- ==== Sys2Proof/Machine/Codec.lean ====
section
/-! DEFINITION. The codec utilities (`40_codec_reference.md`): host-side reference functions, not hardware (`00_scope.md` R4). No
step calls them; they are here because the spec states its worked examples, and its interleave (R96), through them. -/

namespace Sys2Proof.Machine

/-- The lowercase hexadecimal digit of a number below 16 (`40_codec_reference.md` R90). -/
def hexDigit (n : Nat) : Char := if n < 10 then Char.ofNat (48 + n) else Char.ofNat (87 + n)

/-- Two digits a byte, the high nibble first (`40_codec_reference.md` R90). -/
def byteToHex (b : Byte) : List Char := [hexDigit (b.toNat / 16), hexDigit (b.toNat % 16)]

/-- `bytesToHex` (`40_codec_reference.md` R90). -/
def bytesToHex (bs : List Byte) : List Char := bs.flatMap byteToHex

/-- The value of a hexadecimal digit. `upper` says whether `A` to `F` are digits, which the spec leaves to the harness
(`40_codec_reference.md` R91, U10; log 16). -/
def hexValue (upper : Bool) (c : Char) : Option Nat :=
  if 48 ≤ c.toNat ∧ c.toNat ≤ 57 then some (c.toNat - 48)
  else if 97 ≤ c.toNat ∧ c.toNat ≤ 102 then some (c.toNat - 87)
  else if upper ∧ 65 ≤ c.toNat ∧ c.toNat ≤ 70 then some (c.toNat - 55)
  else none

/-- `hexToBytes`: `none` is the harness function's InvalidInput, odd length or a character that is no digit
(`40_codec_reference.md` R91); the engine never raises it (`60_exceptions.md` R168). -/
def hexToBytes (upper : Bool) : List Char → Option (List Byte)
  | [] => some []
  | [_] => none
  | h :: l :: rest =>
    match hexValue upper h, hexValue upper l, hexToBytes upper rest with
    | some a, some b, some bs => some (BitVec.ofNat 8 (16 * a + b) :: bs)
    | _, _, _ => none

/-- `bitsToByteAligned`: zeros on the left until the length is a multiple of 8 (`40_codec_reference.md` R93). -/
def bitsToByteAligned (bits : List Bool) : List Bool := List.replicate ((8 - bits.length % 8) % 8) false ++ bits

/-- `textToBytes`: character number c, 0 to 255, is the byte c (`40_codec_reference.md` R94). A character above 255 has no value
here (N24; log 16). -/
def textToBytes (text : List Char) : Option (List Byte) :=
  text.mapM (fun c => if c.toNat ≤ 255 then some (BitVec.ofNat 8 c.toNat) else none)

/-- `bytesToText` (`40_codec_reference.md` R94). -/
def bytesToText (bs : List Byte) : List Char := bs.map (fun b => Char.ofNat b.toNat)

/-- Round r of the source's lockstep walk over hex texts, two digits from each stream that has them
(`44_multi_key_engine.md` R145). -/
def weaveHexRound (hs : List (List Char)) (r : Nat) : List Char := hs.flatMap (fun h => (h.drop (2 * r)).take 2)

/-- The interleave as KCS writes it, through hex text (`44_multi_key_engine.md` R145, `40_codec_reference.md` R96): each lane
output as hex, as many rounds of digit pairs as TAIL_POLICY provides, the combined string back to bytes. -/
def weaveHex (t : TailPolicy) (os : List (List Byte)) : Option (List Byte) :=
  hexToBytes false ((List.range (weaveRounds t os)).flatMap (weaveHexRound (os.map bytesToHex)))

end Sys2Proof.Machine
end

