-- ==== Sys2Proof/Machine/Lanes.lean ====
section
/-! DEFINITION. A stream with its working registers written out (`10_state.md` R33), one step per byte, and the lanes of an XM
command run under any schedule (`44_multi_key_engine.md` R143, R148; U5). A command is one step for the host (`70_reset_and_hazards.md`
R186), so `exec` uses `stream` and `xm`; the statements LaneRegistersComputeTheStream and LaneScheduleIsUnobservable tie the two. -/

namespace Sys2Proof.Machine

/-- One stream while its command executes: the working registers of `10_state.md` R33, the stream's input, and its output so far. -/
structure Lane where
  /-- K, the working key. -/
  k : Byte
  /-- X, the consumed byte of the last step. -/
  x : Byte
  /-- Y, the emitted byte of the last step. -/
  y : Byte
  /-- POS, the index of the next step. -/
  pos : Nat
  /-- The stream's input sequence. -/
  input : List Byte
  /-- The bytes emitted so far. -/
  out : List Byte
  deriving DecidableEq, Repr

/-- A stream when its command starts: K <- seed (`43_single_key_engine.md` R120). X and Y hold nothing yet and nothing reads them
before the first step writes them; 0 here is DESIGN CHOICE (log 11). -/
def laneStart (seed : Byte) (input : List Byte) : Lane :=
  { k := seed, x := 0, y := 0, pos := 0, input := input, out := [] }

/-- One pass of the loop body of STREAM (`43_single_key_engine.md` R120); a lane with no byte left does nothing
(`44_multi_key_engine.md` R143). -/
def laneStep (v : Variant) (m : Mode) (l : Lane) : Lane :=
  match l.input[l.pos]? with
  | none => l
  | some x =>
    { l with
      k := nextKey v l.k x (outByte v x l.k m) m
      x := x
      y := outByte v x l.k m
      pos := l.pos + 1
      out := l.out ++ [outByte v x l.k m] }

/-- The N lanes of an XM command at its start (`44_multi_key_engine.md` R143). -/
def lanesStart (p : List Byte) (ks : List Byte) : List Lane :=
  ks.zipIdx.map (fun ki => laneStart ki.1 (deal p ks.length ki.2))

/-- The lanes after the lane steps of a schedule, a list of lane numbers in the order their steps are taken. -/
def runLanes (m : Mode) (ls : List Lane) (schedule : List Nat) : List Lane :=
  schedule.foldl (fun ls i => ls.modify i (laneStep .c m)) ls

/-- Every lane has consumed its whole sub-stream: the condition of the join (`44_multi_key_engine.md` R148). -/
def lanesDone (ls : List Lane) : Bool := ls.all (fun l => decide (l.input.length ≤ l.pos))

end Sys2Proof.Machine
end

