-- ==== Sys2Proof/Machine/HostProgram.lean ====
section
/-! DEFINITION. The spec's pseudo-operations as the host accesses they abbreviate, "and nothing more" (`30_encoding.md` R81). A host
program is their concatenation (R80). -/

namespace Sys2Proof.Machine

/-- `WR CSR.CMD, word` (`30_encoding.md` R80). -/
def command (i : Instr) : List Access := [.wrCsr 0 (encode i)]

/-- `LDIN b0 b1 ... b(L-1)` (`30_encoding.md` R81). -/
def ldin (bs : List Byte) : List Access :=
  bs.zipIdx.map (fun p => .wrIn p.2 p.1) ++ [.wrCsr 2 (BitVec.ofNat 32 bs.length)]

/-- `LDKEYS k0, ..., k(n-1)` (`30_encoding.md` R81). -/
def ldkeys (ks : List Imm16) : List Access :=
  ks.zipIdx.map (fun p => .wrKey p.2 p.1) ++ [.wrCsr 4 (BitVec.ofNat 32 ks.length)]

/-- The reads of `EXPECT OK` for a result of `n` bytes (`30_encoding.md` R81). -/
def expectOkReads (n : Nat) : List Access := [.rdCsr 1, .rdCsr 3] ++ (List.range n).map .rdOut

/-- What those reads return when the result is `bs`, oldest first (`30_encoding.md` R81). -/
def expectOkReplies (bs : List Byte) : List Reply :=
  [.word 1, .word (BitVec.ofNat 32 bs.length)] ++ bs.map .byte

/-- The reads of `EXPECT ERR` (`30_encoding.md` R81). -/
def expectErrReads : List Access := [.rdCsr 1, .rdCsr 3]

/-- What those reads return for `code`, oldest first: 0x00000003 + code * 16, and 0 (`30_encoding.md` R81). -/
def expectErrReplies (code : Nat) : List Reply := [.word (BitVec.ofNat 32 (3 + code * 16)), .word 0]

end Sys2Proof.Machine
end

