-- ==== Sys2Proof/WellFormed.lean ====
section
/-! DEFINITION. What is well formed: a configuration (`00_scope.md` R5, R6), an access for an engine of a given configuration
(`20_memory.md` R52, R59), a host program. An instruction is always well formed: IMM16 is any 16-bit value in every row
(`30_encoding.md` R76, R80), and its type admits nothing else. -/

namespace Sys2Proof

/-- The operand a command carries in IMM16 (`30_encoding.md` R74, R75). -/
def Instr.imm16 : Instr → Imm16
  | .xa k => k
  | .xbE k => k
  | .xbD k => k
  | .xcE k => k
  | .xcD k => k
  | .xmE n => n
  | .xmD n => n

/-- `key` and `n` are any value 0 to 65535 (`30_encoding.md` R80). The type of the operand already says so: the check refuses no
term (`Laws/Decode.lean`, `Instr.wf_all`). -/
def Instr.wf (i : Instr) : Bool := decide (i.imm16.toNat ≤ 65535)

/-- LMAX ≥ 1 and 1 ≤ NMAX ≤ 65535 (`00_scope.md` R5, R6). -/
def Config.wf (c : Config) : Bool := decide (1 ≤ c.lmax ∧ 1 ≤ c.nmax ∧ c.nmax ≤ 65535)

namespace Machine

/-- The element an access names exists in an engine of configuration `c`, and the access has the element's width
(`20_memory.md` R50, R52, R59). -/
def Access.wf (c : Config) : Access → Bool
  | .rdCsr n => decide (n ≤ 4)
  | .wrCsr n _ => decide (n ≤ 4)
  | .rdKey i => decide (i < c.nmax)
  | .wrKey i _ => decide (i < c.nmax)
  | .rdIn j => decide (j < c.lmax)
  | .wrIn j _ => decide (j < c.lmax)
  | .rdOut j => decide (j < c.lmax)
  | .wrOut j _ => decide (j < c.lmax)
  | .otherWidth _ _ _ => false
  | .otherSpace _ _ => false
  | .reset => true

/-- A host program every access of which exists (`30_encoding.md` R80). -/
def programWf (c : Config) (as : List Access) : Bool := as.all (Access.wf c)

end Machine

end Sys2Proof
end

