-- ==== Sys2Proof/Safety.lean ====
section
/-! DEFINITION. What counts as a good state and a safe run, in the terms the statements use. -/

namespace Sys2Proof.Machine

/-- STATUS as it can read (`10_state.md` R27, `60_exceptions.md` R162): 0 before any command, then the success word or the failure
word of one of the four causes. So bits 3:2 and 31:8 are 0, ECODE is 0 when ERR is 0, and codes 5 to 15 never appear. -/
def statusLegal (w : Word) : Bool :=
  decide (w = 0 ∨ w = statusSuccess ∨ w = statusFailure .illegalCmd ∨ w = statusFailure .lenRange ∨
    w = statusFailure .keyCount ∨ w = statusFailure .keyRange)

/-- The invariant every step keeps: the parameters are legal (R5, R6), KEY, IN and OUT are in canonical form inside their sizes
(R21, R31, R32), OUTLEN is at most LMAX (R29), STATUS is legal, and there is a result only after a command that succeeded (R166). -/
def State.inv (s : State) : Bool :=
  s.cfg.wf && Cells.wf s.cfg.nmax s.key && Cells.wf s.cfg.lmax s.inBuf && Cells.wf s.cfg.lmax s.outBuf &&
  decide (s.outlen.toNat ≤ s.cfg.lmax) && statusLegal s.status && decide (s.status = statusSuccess ∨ s.outlen = 0)

/-- `State.inv` as a proposition. -/
abbrev State.Inv (s : State) : Prop := s.inv = true

/-- The machine's own run of `n` steps, stopping at the first refusal: `Host.Core.run` of `Sys2Proof.core`, at the model's types. -/
def run (n : Nat) (s : State) : Host.Outcome State Fault Refusal := Sys2Proof.core.run n s

/-- Every access the host still has to make exists in this engine (`20_memory.md` R59). -/
abbrev State.HostKeepsToTheMap (s : State) : Prop := programWf s.cfg s.pending = true

/-- Two states show a host the same thing and will treat it the same: all fields agree but the bytes of OUT behind the read gate,
which nothing can read (`10_state.md` R32). -/
def State.SameToHost (s t : State) : Prop :=
  s.cfg = t.cfg ∧ s.status = t.status ∧ s.inlen = t.inlen ∧ s.outlen = t.outlen ∧ s.kcnt = t.kcnt ∧ s.key = t.key ∧
  s.inBuf = t.inBuf ∧ s.pending = t.pending ∧ s.replies = t.replies ∧ ∀ j, outByteAt s j = outByteAt t j

end Sys2Proof.Machine
end

