-- ==== Sys2Proof/Certificates/Slice0/Obligations.lean ====
section
/-! DEFINITION. The statements about the model, for the provers. Each docstring names the rule of spec/ it formalises. A statement
about one state is made for every state, so for every LMAX, NMAX and TAIL_POLICY; `State.Inv`, where it is a premise, is itself
kept by every step (StepKeepsInvariant). -/

namespace Sys2Proof.Claims

open Sys2Proof.Machine

/-- `s` after a command that ended with InvalidInput(code): OUTLEN = 0 and STATUS = 0x00000003 + code * 16 (`60_exceptions.md` R166,
`30_encoding.md` R81), everything else as in `s`. -/
def failed (code : Nat) (s : State) : State := (s.setOutlen 0).setStatus (BitVec.ofNat 32 (3 + code * 16))

/-- What no command writes is as it was: INLEN, KCNT, KEY, IN (`20_memory.md` R55), and the model's own fields. -/
def OperandsKept (s t : State) : Prop :=
  t.inlen = s.inlen ∧ t.kcnt = s.kcnt ∧ t.key = s.key ∧ t.inBuf = s.inBuf ∧
  t.cfg = s.cfg ∧ t.pending = s.pending ∧ t.replies = s.replies

/-- `t` is `s` after a command that succeeded with result `o`: STATUS = 0x00000001, OUTLEN = len(o), OUT reads as `o` and then as
0x00, and no other byte of OUT was stored to. -/
def Succeeded (o : List Byte) (s t : State) : Prop :=
  t.status = 1 ∧ t.outlen.toNat = o.length ∧ o.length ≤ s.cfg.lmax ∧
  (∀ j, j < s.cfg.lmax → readOut t j = some (o[j]?.getD 0)) ∧
  (∀ j, o.length ≤ j → Cells.read t.outBuf j = Cells.read s.outBuf j) ∧ OperandsKept s t

/-- OP of a command word, as a number. -/
def op (w : Word) : Nat := w.toNat % 16

/-- M of a command word, as a number. -/
def mode (w : Word) : Nat := w.toNat / 16 % 2

/-- ZERO of a command word, as a number. -/
def zero (w : Word) : Nat := w.toNat / 32 % 2048

/-- IMM16 of a command word, as a number. -/
def imm (w : Word) : Nat := w.toNat / 65536

/-- `30_encoding.md` R77: a word is illegal when any of these holds. -/
def Illegal (w : Word) : Prop := zero w ≠ 0 ∨ op w = 0 ∨ 5 ≤ op w ∨ (op w = 1 ∧ mode w = 1)

/-- The keys of a command of partition count `n`: KEY[0][7:0] to KEY[n-1][7:0] (`44_multi_key_engine.md` R149). -/
def keys (s : State) (n : Nat) : List Byte := (List.range n).map (fun i => BitVec.ofNat 8 (Cells.read s.key i).toNat)

/-- The seed bits IMM16[7:0]. -/
def seedByte (seed : Imm16) : Byte := BitVec.ofNat 8 seed.toNat

/-- The frame of R122 for a single-key command `i` with seed operand `seed` and transform `f`: the checks LEN_RANGE and KEY_RANGE in
that order, else the result `f` gives on IN[0..INLEN-1]. -/
def SingleKeyCommand (i : Instr) (seed : Imm16) (f : List Byte → Byte → List Byte) : Prop :=
  ∀ s : State, s.Inv →
    (s.cfg.lmax < s.inlen.toNat → exec i s = .next (failed 2 s)) ∧
    (s.inlen.toNat ≤ s.cfg.lmax → 255 < seed.toNat → exec i s = .next (failed 4 s)) ∧
    (s.inlen.toNat ≤ s.cfg.lmax → seed.toNat ≤ 255 →
      ∃ t, exec i s = .next t ∧ Succeeded (f (inputSeq s) (seedByte seed)) s t ∧ t.outlen = s.inlen)

/-- The frame of R149 for a multi-key command `i` of partition count `n` and mode `m`: the checks LEN_RANGE, KEY_COUNT, KEY_RANGE in
that order, else the result XM gives on IN[0..INLEN-1] and KEY[0..n-1]. -/
def MultiKeyCommand (i : Instr) (n : Imm16) (m : Mode) : Prop :=
  ∀ s : State, s.Inv →
    (s.cfg.lmax < s.inlen.toNat → exec i s = .next (failed 2 s)) ∧
    (s.inlen.toNat ≤ s.cfg.lmax → (n.toNat = 0 ∨ s.cfg.nmax < n.toNat ∨ n.toNat ≠ s.kcnt.toNat) →
      exec i s = .next (failed 3 s)) ∧
    (s.inlen.toNat ≤ s.cfg.lmax → 1 ≤ n.toNat → n.toNat ≤ s.cfg.nmax → n.toNat = s.kcnt.toNat →
      ((∃ k, k < n.toNat ∧ 255 < (Cells.read s.key k).toNat) → exec i s = .next (failed 4 s)) ∧
      ((∀ k, k < n.toNat → (Cells.read s.key k).toNat ≤ 255) →
        ∃ t, exec i s = .next t ∧ Succeeded (xm s.cfg.tail (inputSeq s) (keys s n.toNat) m) s t))

/-- How many bytes XM makes of L input bytes on N lanes (`44_multi_key_engine.md` R146). -/
def xmLength (t : TailPolicy) (l n : Nat) : Nat :=
  match t with
  | .drop => l / n * n
  | .keep => l

/-- The words of a command are IMM16 in bits 31:16 over M = `m` and OP = `o`, ZERO = 0 (`30_encoding.md` R71, R76). -/
def Encoded (c : Imm16 → Instr) (m o : Nat) : Prop :=
  ∀ (w : Word) (k : Imm16), decode w = .ok (c k) ↔ w.toNat = k.toNat * 65536 + m * 16 + o

/-- `if word is illegal then raise InvalidInput(ILLEGAL_CMD)`, the first line of every command (`43_single_key_engine.md` R122,
`44_multi_key_engine.md` R149). -/
def IllegalWordsFail : Prop :=
  ∀ (w : Word) (s : State) (rest : List Access), Illegal w → s.pending = .wrCsr 0 w :: rest →
    step s = .next (failed 1 (s.setPending rest))

/-- "Hello" (`40_codec_reference.md` R95). -/
def hello : List Byte := [0x48, 0x65, 0x6c, 0x6c, 0x6f]

/-- The hexadecimal digits 0 to 15 in lowercase (`40_codec_reference.md` R90). -/
def lowerDigits : List Char := ['0', '1', '2', '3', '4', '5', '6', '7', '8', '9', 'a', 'b', 'c', 'd', 'e', 'f']

/-- The digits 10 to 15 in uppercase, which a harness may accept or not (`40_codec_reference.md` R91). -/
def upperDigits : List Char := ['A', 'B', 'C', 'D', 'E', 'F']

/-- `c` is a hexadecimal digit of value `n`: one of 0-9, a-f, and of A-F exactly when `upper`. -/
def DigitOf (upper : Bool) (c : Char) (n : Nat) : Prop :=
  lowerDigits[n]? = some c ∨ (upper = true ∧ 10 ≤ n ∧ upperDigits[n - 10]? = some c)

end Sys2Proof.Claims

open Sys2Proof Sys2Proof.Machine Sys2Proof.Claims

/-! ## The two byte functions -/

/-- `41_key_scheduler.md` R100, R102: SQ8 is the square modulo 256, ADVANCE takes the square unless it is 0 or 1 and else the
consumed byte in mode E, the emitted byte in mode D. -/
def Obligations.KeySchedulerTransition : Prop :=
  (∀ k : Byte, (sq8 k).toNat = k.toNat * k.toNat % 256) ∧
  (sq8 0 = 0 ∧ sq8 1 = 1 ∧ sq8 255 = 1 ∧ sq8 16 = 0 ∧ sq8 128 = 0 ∧ sq8 2 = 4 ∧ sq8 250 = 0x24) ∧
  (∀ k x y : Byte, sq8 k = 0 ∨ sq8 k = 1 → advance k x y .e = x ∧ advance k x y .d = y) ∧
  (∀ (k x y : Byte) (m : Mode), sq8 k ≠ 0 → sq8 k ≠ 1 → advance k x y m = sq8 k) ∧
  (∀ (x y : Byte) (m : Mode), advance 253 x y m = 9) ∧
  advance 16 0x41 0x51 .e = 0x41 ∧ advance 16 0x41 0x51 .d = 0x51

/-- `41_key_scheduler.md` section 1, what its R101 infers from R100: the 20 keys whose square is 0 or 1, the only ones recovery fires
for, and the symmetries of SQ8. -/
def Obligations.DegenerateKeysExactly : Prop :=
  (∀ k : Byte, sq8 k = 0 ↔ k.toNat % 16 = 0) ∧
  (∀ k : Byte, sq8 k = 1 ↔ k = 1 ∨ k = 127 ∨ k = 129 ∨ k = 255) ∧
  (∀ k : Byte, (∀ x y, advance k x y .e = x ∧ advance k x y .d = y) ↔
    k.toNat % 16 = 0 ∨ k = 1 ∨ k = 127 ∨ k = 129 ∨ k = 255) ∧
  ((List.range 256).filter (fun k => degenerate (sq8 (BitVec.ofNat 8 k)))).length = 20 ∧
  (∀ k : Byte, (sq8 k).toNat % 2 = 0 ↔ k.toNat % 2 = 0) ∧
  (∀ k : Nat, 1 ≤ k → k ≤ 255 → sq8 (BitVec.ofNat 8 k) = sq8 (BitVec.ofNat 8 (256 - k))) ∧
  (∀ k : Nat, k ≤ 127 → sq8 (BitVec.ofNat 8 (k + 128)) = sq8 (BitVec.ofNat 8 k))

/-- `42_bit_permuter.md` R110: SWP exchanges the two bits of each of the four pairs. -/
def Obligations.SwpExchangesEachPair : Prop :=
  (∀ b : Byte,
    (swp b).getLsbD 7 = b.getLsbD 6 ∧ (swp b).getLsbD 6 = b.getLsbD 7 ∧
    (swp b).getLsbD 5 = b.getLsbD 4 ∧ (swp b).getLsbD 4 = b.getLsbD 5 ∧
    (swp b).getLsbD 3 = b.getLsbD 2 ∧ (swp b).getLsbD 2 = b.getLsbD 3 ∧
    (swp b).getLsbD 1 = b.getLsbD 0 ∧ (swp b).getLsbD 0 = b.getLsbD 1 ∧
    swp b = ((b &&& 0xAA) >>> 1) ||| ((b &&& 0x55) <<< 1)) ∧
  swp 0x00 = 0x00 ∧ swp 0xFF = 0xFF ∧ swp 0x01 = 0x02 ∧ swp 0x80 = 0x40 ∧ swp 0xAA = 0x55 ∧ swp 0x55 = 0xAA ∧ swp 0x48 = 0x84

/-- `42_bit_permuter.md` R111: SWP is its own inverse, hence a bijection of the 256 byte values. -/
def Obligations.SwpIsSelfInverse : Prop :=
  (∀ b : Byte, swp (swp b) = b) ∧ Function.Bijective swp ∧ (∀ a b : Byte, swp a = b ↔ swp b = a)

/-- `42_bit_permuter.md`, what its R113 and R114 infer: SWP distributes over XOR, has exactly 16 fixed points and moves the other 240
bytes. -/
def Obligations.SwpIsLinear : Prop :=
  (∀ a b : Byte, swp (a ^^^ b) = swp a ^^^ swp b) ∧
  (∀ b : Byte, swp b = b ↔ b ∈ ([0x00, 0x03, 0x0C, 0x0F, 0x30, 0x33, 0x3C, 0x3F, 0xC0, 0xC3, 0xCC, 0xCF, 0xF0, 0xF3, 0xFC,
    0xFF] : List Byte)) ∧
  ((List.range 256).filter (fun b => decide (swp (BitVec.ofNat 8 b) ≠ BitVec.ofNat 8 b))).length = 240

/-- `43_single_key_engine.md` section 5, its inference R129: one step of variant C in either mode undoes one step in the other with the same key; the same
mode twice does so only when the key is a fixed point of SWP. -/
def Obligations.VariantCStepsInvertEachOther : Prop :=
  ∀ p k : Byte,
    outByte .c (outByte .c p k .e) k .d = p ∧ outByte .c (outByte .c p k .d) k .e = p ∧
    outByte .c (outByte .c p k .e) k .e = p ^^^ swp k ^^^ k ∧
    (outByte .c (outByte .c p k .e) k .e = p ↔ swp k = k) ∧
    (outByte .c (outByte .c p k .d) k .d = p ↔ swp k = k)

/-! ## Streams -/

/-- `43_single_key_engine.md` R120: the loop every variant shares. The first key is the seed, step j emits OUTBYTE under key j, key
j + 1 is NEXTKEY of step j; one output byte per input byte. -/
def Obligations.StreamRunsTheLoop : Prop :=
  ∀ (v : Variant) (m : Mode) (s : List Byte) (seed : Byte),
    (stream v m s seed).length = s.length ∧ (keySequence v m s seed).length = s.length ∧
    (stream v m [] seed = []) ∧
    (s ≠ [] → (keySequence v m s seed)[0]? = some seed) ∧
    ∀ (j : Nat) (x : Byte), s[j]? = some x →
      ∃ k, (keySequence v m s seed)[j]? = some k ∧
        (stream v m s seed)[j]? = some (outByte v x k m) ∧
        (j + 1 < s.length → (keySequence v m s seed)[j + 1]? = some (nextKey v k x (outByte v x k m) m))

/-- `43_single_key_engine.md` section 5, its inference R132: output byte j depends only on the seed, the mode and input bytes 0 to j. -/
def Obligations.StreamPrefixProperty : Prop :=
  ∀ (v : Variant) (m : Mode) (s s' : List Byte) (seed : Byte),
    (∀ n, n ≤ s.length → stream v m (s.take n) seed = (stream v m s seed).take n) ∧
    (∀ j, s.take (j + 1) = s'.take (j + 1) → (stream v m s seed)[j]? = (stream v m s' seed)[j]?)

/-- `43_single_key_engine.md` R121: variant A XORs the data with a keystream that depends on the seed alone, squares at every step
without recovery, and is its own inverse. -/
def Obligations.VariantAXorsTheSquaringKeystream : Prop :=
  (∀ (x k : Byte) (m : Mode), outByte .a x k m = x ^^^ k) ∧
  (∀ (k x y : Byte) (m : Mode), nextKey .a k x y m = sq8 k) ∧
  (∀ (s : List Byte) (seed : Byte) (j : Nat), (xa s seed)[j]? = s[j]?.map (· ^^^ sq8^[j] seed)) ∧
  (∀ (seed k : Byte) (i j : Nat), k = 0 ∨ k = 1 → i ≤ j → sq8^[i] seed = k → sq8^[j] seed = k) ∧
  (∀ (s : List Byte) (seed : Byte), xa (xa s seed) seed = s)

/-- `43_single_key_engine.md` section 5, its inference R131: where the keystream of variant A ends. -/
def Obligations.VariantAKeystreamFreezes : Prop :=
  (∀ (seed : Byte) (j : Nat), seed.toNat % 2 = 0 → 3 ≤ j → sq8^[j] seed = 0) ∧
  (∀ (seed : Byte) (j : Nat), seed.toNat % 2 = 1 → 6 ≤ j → sq8^[j] seed = 1) ∧
  sq8^[3] 250 = 0 ∧ sq8^[1] 16 = 0 ∧ sq8^[1] 255 = 1 ∧
  (List.range 7).map (fun j => sq8^[j] 3) = [0x03, 0x09, 0x51, 0xa1, 0x41, 0x81, 0x01] ∧
  (List.range 7).map (fun j => sq8^[j] 253) = [0xfd, 0x09, 0x51, 0xa1, 0x41, 0x81, 0x01]

/-- `41_key_scheduler.md` R103: in both modes, in variants B and C, the byte that replaces a degenerate key is the plaintext byte of
the step, so a decryption walks the keys of the encryption it undoes. -/
def Obligations.RecoveryTakesThePlaintextByte : Prop :=
  ∀ (v : Variant) (p : List Byte) (seed : Byte), v ≠ .a →
    keySequence v .d (stream v .e p seed) seed = keySequence v .e p seed ∧
    ∀ (j : Nat) (k x : Byte), (keySequence v .e p seed)[j]? = some k → p[j]? = some x → j + 1 < p.length →
      (sq8 k = 0 ∨ sq8 k = 1) → (keySequence v .e p seed)[j + 1]? = some x

/-- `43_single_key_engine.md` R130: decryption undoes encryption for every byte sequence and every seed. -/
def Obligations.SingleKeyRoundTrip : Prop :=
  ∀ (p : List Byte) (k : Byte), xb (xb p k .e) k .d = p ∧ xc (xc p k .e) k .d = p ∧ xa (xa p k) k = p

/-- `10_state.md` R33: the working registers K, X, Y, POS of a stream, stepped once per byte, compute STREAM. -/
def Obligations.LaneRegistersComputeTheStream : Prop :=
  ∀ (v : Variant) (m : Mode) (s : List Byte) (seed : Byte) (n : Nat),
    ((laneStep v m)^[n] (laneStart seed s)).out = (stream v m s seed).take n ∧
    ((laneStep v m)^[n] (laneStart seed s)).pos = min n s.length ∧
    (n < s.length → (keySequence v m s seed)[n]? = some ((laneStep v m)^[n] (laneStart seed s)).k) ∧
    (n < s.length → s[n]? = some ((laneStep v m)^[n + 1] (laneStart seed s)).x ∧
      (stream v m s seed)[n]? = some ((laneStep v m)^[n + 1] (laneStart seed s)).y)

/-! ## Deal, lanes, interleave -/

/-- `44_multi_key_engine.md` R142: length and elements of sub-stream i. -/
def Obligations.DealSubStreams : Prop :=
  (∀ (s : List Byte) (n i : Nat), i < n →
    (deal s n i).length = s.length / n + (if i < s.length % n then 1 else 0) ∧
    (deal s n i).length ≤ (deal s n 0).length ∧ s.length / n ≤ (deal s n i).length ∧
    (deal s n (n - 1)).length = s.length / n ∧
    (s.length ≤ i → deal s n i = []) ∧
    ∀ r, (deal s n i)[r]? = s[i + r * n]?) ∧
  deal [0x48, 0x65, 0x6c, 0x6c, 0x6f, 0x2c, 0x20] 3 1 = [0x65, 0x6f]

/-- `44_multi_key_engine.md` R146: how many bytes the interleave emits and which lane byte stands at each position, under both
policies; under DROP for any lane outputs, and the loss of a tail is no error. -/
def Obligations.InterleavePositions : Prop :=
  (∀ (os : List (List Byte)) (r : Nat), (∀ o ∈ os, r ≤ o.length) → (∃ o ∈ os, o.length = r) →
    (weave .drop os).length = r * os.length ∧
    ∀ j, j < r * os.length → (weave .drop os)[j]? = (os[j % os.length]?).bind (·[j / os.length]?)) ∧
  (∀ (t : TailPolicy) (p ks : List Byte) (m : Mode), ks ≠ [] →
    (xm t p ks m).length = xmLength t p.length ks.length ∧
    (∀ j, j < xmLength t p.length ks.length →
      (xm t p ks m)[j]? = ((laneOutputs p ks m)[j % ks.length]?).bind (·[j / ks.length]?)) ∧
    (p.length % ks.length = 0 → xm .drop p ks m = xm .keep p ks m)) ∧
  (∀ (n : Imm16) (s : State), multiKeyCheck n s = none →
    (∃ t, exec (.xmE n) s = .next t ∧ t.status = 1) ∧ (∃ t, exec (.xmD n) s = .next t ∧ t.status = 1))

/-- `44_multi_key_engine.md` section 4, its inference R147: under DROP the dropped tail has no effect on the bytes that are kept. -/
def Obligations.DroppedTailHasNoEffect : Prop :=
  ∀ (p ks : List Byte) (m : Mode), ks ≠ [] →
    xm .drop p ks m = xm .keep (p.take (p.length / ks.length * ks.length)) ks m ∧
    xm .drop p ks m = (xm .keep p ks m).take (p.length / ks.length * ks.length)

/-- `44_multi_key_engine.md` R152: the multi-key round trip, up to the truncated length under DROP, whole under KEEP. -/
def Obligations.MultiKeyRoundTrip : Prop :=
  ∀ (p ks : List Byte), ks ≠ [] →
    xm .drop (xm .drop p ks .e) ks .d = p.take (p.length / ks.length * ks.length) ∧
    (p.length % ks.length = 0 → xm .drop (xm .drop p ks .e) ks .d = p) ∧
    xm .keep (xm .keep p ks .e) ks .d = p

/-- `44_multi_key_engine.md` section 6, its inference R153: with one lane XM is variant C, under both policies. -/
def Obligations.OneLaneIsVariantC : Prop :=
  ∀ (t : TailPolicy) (p : List Byte) (k : Byte) (m : Mode), deal p 1 0 = p ∧ xm t p [k] m = xc p k m

/-- `44_multi_key_engine.md` section 6, its inference R154: an output byte depends only on the mode, its lane's key and its lane's input up to its position. -/
def Obligations.OutputByteDependsOnItsLaneOnly : Prop :=
  ∀ (t t' : TailPolicy) (p p' ks ks' : List Byte) (m : Mode) (j : Nat),
    ks.length = ks'.length → j < (xm t p ks m).length → j < (xm t' p' ks' m).length →
    ks[j % ks.length]? = ks'[j % ks.length]? →
    (∀ i, i ≤ j → i % ks.length = j % ks.length → p[i]? = p'[i]?) →
    (xm t p ks m)[j]? = (xm t' p' ks' m)[j]?

/-- `44_multi_key_engine.md` section 3 (R143, R148): lane i is variant C on sub-stream i with key i; whatever the order in which lane
steps are taken, once every lane has consumed its sub-stream the lane outputs are the same; and every schedule that gives each lane as
many steps as it has bytes gets there. Schedules are run by `runLanes`, beside exec (log 14). -/
def Obligations.LaneScheduleIsUnobservable : Prop :=
  (∀ (p ks : List Byte) (m : Mode) (i : Nat) (k : Byte), ks[i]? = some k →
    (laneOutputs p ks m)[i]? = some (xc (deal p ks.length i) k m) ∧
    (deal p ks.length i = [] → (laneOutputs p ks m)[i]? = some [])) ∧
  ∀ (p ks : List Byte) (m : Mode) (schedule : List Nat),
    (lanesDone (runLanes m (lanesStart p ks) schedule) = true →
      (runLanes m (lanesStart p ks) schedule).map Lane.out = laneOutputs p ks m) ∧
    ((∀ i, i < ks.length → (deal p ks.length i).length ≤ schedule.count i) →
      lanesDone (runLanes m (lanesStart p ks) schedule) = true)

/-- `40_codec_reference.md`, its inference R96: the source's interleave through hex text never fails and is the interleave of bytes. -/
def Obligations.HexInterleaveIsByteInterleave : Prop :=
  ∀ (t : TailPolicy) (os : List (List Byte)), weaveHex t os = some (weave t os)

/-! ## The codec utilities (host side) -/

/-- `40_codec_reference.md`: hexToBytes undoes bytesToHex (R92), which writes two lowercase digits a byte, the high nibble first (R90).
That order is no rule of the source: the spec marks it as general knowledge (`93_implementation_defined.md` G2). -/
def Obligations.HexCodecRoundTrip : Prop :=
  (∀ (upper : Bool) (bs : List Byte), hexToBytes upper (bytesToHex bs) = some bs) ∧
  (∀ bs : List Byte, (bytesToHex bs).length = 2 * bs.length ∧
    ∀ c ∈ bytesToHex bs, c ∈ ['0', '1', '2', '3', '4', '5', '6', '7', '8', '9', 'a', 'b', 'c', 'd', 'e', 'f']) ∧
  (∀ (bs : List Byte) (j : Nat) (b : Byte), bs[j]? = some b →
    (bytesToHex bs)[2 * j]?
      = ['0', '1', '2', '3', '4', '5', '6', '7', '8', '9', 'a', 'b', 'c', 'd', 'e', 'f'][b.toNat / 16]? ∧
    (bytesToHex bs)[2 * j + 1]?
      = ['0', '1', '2', '3', '4', '5', '6', '7', '8', '9', 'a', 'b', 'c', 'd', 'e', 'f'][b.toNat % 16]?) ∧
  bytesToHex [] = [] ∧ bytesToHex [0x05, 0xb2, 0x00] = ['0', '5', 'b', '2', '0', '0']

/-- `40_codec_reference.md` (R91, R93, R94): hexToBytes fails exactly on odd length or a character that is no digit, the digits being
0-9, a-f, and A-F exactly when `upper` (the harness's choice, log 16), and else gives 16 * value(h) + value(l) for each pair; byte
alignment of a digit string; the raw text codec on bytes. -/
def Obligations.HostCodecContracts : Prop :=
  (∀ (upper : Bool) (cs : List Char),
    hexToBytes upper cs = none ↔
      cs.length % 2 = 1 ∨ ∃ c ∈ cs, c ∉ lowerDigits ∧ (upper = true → c ∉ upperDigits)) ∧
  (∀ (upper : Bool) (cs : List Char) (bs : List Byte), hexToBytes upper cs = some bs →
    cs.length = 2 * bs.length ∧
    ∀ (j : Nat) (h l : Char) (a b : Nat), cs[2 * j]? = some h → cs[2 * j + 1]? = some l → DigitOf upper h a → DigitOf upper l b →
      (bs[j]?).map BitVec.toNat = some (16 * a + b)) ∧
  (∀ upper : Bool, hexToBytes upper [] = some [] ∧ hexToBytes upper ['a', 'b', 'c'] = none ∧
    hexToBytes upper ['8', '5', '9', '8', '9', 'f', '9', '8', '9', 'a'] = some [0x85, 0x98, 0x9f, 0x98, 0x9a]) ∧
  (∀ bits : List Bool, (bitsToByteAligned bits).length % 8 = 0 ∧
    ∃ n, n < 8 ∧ bitsToByteAligned bits = List.replicate n false ++ bits) ∧
  (∀ bs : List Byte, textToBytes (bytesToText bs) = some bs ∧ (bytesToText bs).map Char.toNat = bs.map BitVec.toNat)

/-! ## The command word -/

/-- `30_encoding.md` R76: the seven rows of the opcode map, each a match under the mask 0x0000FFFF with IMM16 free. -/
def Obligations.OpcodeMap : Prop :=
  ∀ (w : Word) (k : Imm16),
    (decode w = .ok (.xa k) ↔ w &&& 0x0000FFFF = 0x00000001 ∧ k.toNat = imm w) ∧
    (decode w = .ok (.xbE k) ↔ w &&& 0x0000FFFF = 0x00000002 ∧ k.toNat = imm w) ∧
    (decode w = .ok (.xbD k) ↔ w &&& 0x0000FFFF = 0x00000012 ∧ k.toNat = imm w) ∧
    (decode w = .ok (.xcE k) ↔ w &&& 0x0000FFFF = 0x00000003 ∧ k.toNat = imm w) ∧
    (decode w = .ok (.xcD k) ↔ w &&& 0x0000FFFF = 0x00000013 ∧ k.toNat = imm w) ∧
    (decode w = .ok (.xmE k) ↔ w &&& 0x0000FFFF = 0x00000004 ∧ k.toNat = imm w) ∧
    (decode w = .ok (.xmD k) ↔ w &&& 0x0000FFFF = 0x00000014 ∧ k.toNat = imm w)

/-- `30_encoding.md` R77: exactly the words it names are illegal, and they execute no transform whatever IMM16, INLEN, KCNT and KEY
hold. -/
def Obligations.IllegalWordsExactly : Prop :=
  (∀ w : Word, (∃ r, decode w = .error r) ↔ Illegal w) ∧ (∀ w : Word, (∃ i, decode w = .ok i) ↔ ¬ Illegal w) ∧
  Illegal 0x00000000 ∧ Illegal 0xFFFFFFFF ∧ IllegalWordsFail

/-- `30_encoding.md` section 4, what its R78 infers: the seven rows are disjoint, a word that matches none is illegal, and 7 * 65536
words are commands. -/
def Obligations.DecodingIsUnambiguous : Prop :=
  (∀ w : Word, Illegal w ↔ w &&& 0x0000FFFF ∉ ([0x01, 0x02, 0x12, 0x03, 0x13, 0x04, 0x14] : List Word)) ∧
  ([0x01, 0x02, 0x12, 0x03, 0x13, 0x04, 0x14] : List Word).Nodup ∧
  Nat.card { w : Word // ∃ i, decode w = .ok i } = 7 * 65536

/-- `30_encoding.md` sections 1 to 3: decode and encode agree for every instruction, and no two words mean the same command. -/
def Obligations.DecodeEncodeAgree : Prop :=
  (∀ i : Instr, decode (encode i) = .ok i) ∧ (∀ (w : Word) (i : Instr), decode w = .ok i → encode i = w)

/-- A few of the spec's words and what they decode to: `95_test_vectors.md` section 3.8, and for the last, XA with M = 1, its section 3.7
(E3) and `30_encoding.md` section 4 (R77). -/
def Obligations.DecodesTheSpecsWords : Prop :=
  decodeTableWord 32 0x00FA0001 = some (.xa 250) ∧ decodeTableWord 32 0x00FD0002 = some (.xbE 253) ∧
  decodeTableWord 32 0x00FD0012 = some (.xbD 253) ∧ decodeTableWord 32 0x00070003 = some (.xcE 7) ∧
  decodeTableWord 32 0x00070013 = some (.xcD 7) ∧ decodeTableWord 32 0x00080004 = some (.xmE 8) ∧
  decodeTableWord 32 0xFFFF0014 = some (.xmD 65535) ∧ decodeTableWord 32 0x00FA0101 = none ∧
  decodeTableWord 32 0x00FA0010 = none ∧ decodeTableWord 32 0x0000000F = none ∧ decodeTableWord 32 0x00FA0011 = none

/-! ## A step -/

/-- A step runs the decoded command: a write to CMD runs exec of the command its word decodes to, or ends with ILLEGAL_CMD (`10_state.md`
R26, `30_encoding.md` R77); the word placed by withFetchWord, the model's own way of placing one (log 5), is the next one run. -/
def Obligations.StepRunsTheDecodedCommand : Prop :=
  (∀ (s : State) (w : Word) (rest : List Access) (i : Instr), s.pending = .wrCsr 0 w :: rest → decode w = .ok i →
    step s = exec i (s.setPending rest)) ∧
  (∀ (s : State) (w : Word) (rest : List Access) (r : IllegalWord), s.pending = .wrCsr 0 w :: rest → decode w = .error r →
    step s = .next (failed 1 (s.setPending rest))) ∧
  (∀ (s : State) (w : Word) (i : Instr), decode w = .ok i → step (s.withFetchWord 32 w.toNat) = exec i s)

/-- `60_exceptions.md` R161, R163 to R167: the checks of a write to CMD, in their fixed order, on the numbers of the word; the first
that fails decides the code, what an error writes, and that a command none fails for succeeds. -/
def Obligations.ValidationOrderAndEffect : Prop :=
  ∀ (s : State) (w : Word) (rest : List Access), s.pending = .wrCsr 0 w :: rest →
    let u := s.setPending rest
    (Illegal w → step s = .next (failed 1 u)) ∧
    (¬ Illegal w → s.cfg.lmax < s.inlen.toNat → step s = .next (failed 2 u)) ∧
    (¬ Illegal w → s.inlen.toNat ≤ s.cfg.lmax → op w = 4 →
      (imm w = 0 ∨ s.cfg.nmax < imm w ∨ imm w ≠ s.kcnt.toNat) → step s = .next (failed 3 u)) ∧
    (¬ Illegal w → s.inlen.toNat ≤ s.cfg.lmax → op w = 4 →
      1 ≤ imm w → imm w ≤ s.cfg.nmax → imm w = s.kcnt.toNat →
      ((∃ i, i < imm w ∧ 255 < (Cells.read s.key i).toNat) → step s = .next (failed 4 u)) ∧
      ((∀ i, i < imm w → (Cells.read s.key i).toNat ≤ 255) → ∃ t, step s = .next t ∧ t.status = 1)) ∧
    (¬ Illegal w → s.inlen.toNat ≤ s.cfg.lmax → op w ≠ 4 →
      (255 < imm w → step s = .next (failed 4 u)) ∧
      (imm w ≤ 255 → ∃ t, step s = .next t ∧ t.status = 1)) ∧
    (∀ code j, outByteAt (failed code u) j = 0)

/-- `20_memory.md` section 6 (R58), in the model's own form of it, the list of accesses yet to be served (log 3): the host's accesses
take effect one at a time in the order issued; a command sees no access issued after it; with none the engine does nothing. -/
def Obligations.AccessesTakeEffectInProgramOrder : Prop :=
  (∀ (s : State) (a : Access) (rest : List Access), s.pending = a :: rest → step s = serve a (s.setPending rest)) ∧
  (∀ (s t : State) (as bs : List Access),
    run as.length (s.setPending as) = .next t →
      t.pending = [] ∧ run as.length (s.setPending (as ++ bs)) = .next (t.setPending bs)) ∧
  (∀ (s : State) (a : Access) (rest rest' : List Access) (t : State), serve a (s.setPending rest) = .next t →
    serve a (s.setPending rest') = .next (t.setPending rest')) ∧
  (∀ s : State, s.pending = [] → step s = .next s)

/-- `20_memory.md` sections 1, 3, 4, 6: an access to an element that does not exist has no step (R59), nor has an access of another width
than its element's (R52; the model refuses whatever it is handed as such, log 9); every access to an element of R50's table in its own
width, and a reset, has one (R50, R54). -/
def Obligations.AccessesServedExactlyInTheMap : Prop :=
  ∀ (s : State) (rest : List Access),
    (∀ (n : Nat) (v : Word), ∀ a ∈ [Access.rdCsr n, .wrCsr n v], s.pending = a :: rest →
      (n ≤ 4 → ∃ t, step s = .next t) ∧ (4 < n → ∃ r, step s = .refused r)) ∧
    (∀ (i : Nat) (v : Imm16), ∀ a ∈ [Access.rdKey i, .wrKey i v], s.pending = a :: rest →
      (i < s.cfg.nmax → ∃ t, step s = .next t) ∧ (s.cfg.nmax ≤ i → ∃ r, step s = .refused r)) ∧
    (∀ (j : Nat) (v : Byte), ∀ a ∈ [Access.rdIn j, .wrIn j v, .rdOut j, .wrOut j v], s.pending = a :: rest →
      (j < s.cfg.lmax → ∃ t, step s = .next t) ∧ (s.cfg.lmax ≤ j → ∃ r, step s = .refused r)) ∧
    (∀ id index : Nat, s.pending = .otherSpace id index :: rest → ∃ r, step s = .refused r) ∧
    (∀ (sp : Space) (index bits : Nat), s.pending = .otherWidth sp index bits :: rest → ∃ r, step s = .refused r) ∧
    (s.pending = .reset :: rest → ∃ t, step s = .next t) ∧
    (∀ a : Access, s.pending = a :: rest → (a.wf s.cfg = true ↔ ∃ t, step s = .next t))

/-! ## Reset and the invariant -/

/-- `10_state.md` R37: after reset everything the host can see is 0. -/
def Obligations.ResetValues : Prop :=
  ∀ c : Config,
    (∀ n, n ≤ 4 → readCsr (State.resetFor c) n = some 0) ∧
    (∀ i, i < c.nmax → readKey (State.resetFor c) i = some 0) ∧
    (∀ j, j < c.lmax → readIn (State.resetFor c) j = some 0 ∧ readOut (State.resetFor c) j = some 0) ∧
    statusDone (State.resetFor c).status = false ∧ statusErr (State.resetFor c).status = false ∧
    statusEcode (State.resetFor c).status = 0 ∧ State.reset = State.resetFor referenceConfig

/-- `70_reset_and_hazards.md` section 1 (R180): a reset delivered between two accesses puts every piece of host-visible state at its
value after reset, from any state. The model's choices in it: that a reset is an entry of the list of accesses and that the lists stay
(log 10), and that the bytes of OUT behind the gate are 0 afterwards (log 7), where the spec says only that they read 0. -/
def Obligations.ResetReturnsToResetValues : Prop :=
  ∀ (s : State) (rest : List Access), s.pending = .reset :: rest →
    step s = .next { State.resetFor s.cfg with pending := rest, replies := s.replies }

/-- `70_reset_and_hazards.md` section 2: right after reset a single-key command with a legal key succeeds with an empty result, and
XM with any N ends with KEY_COUNT. -/
def Obligations.FirstCommandAfterReset : Prop :=
  ∀ (c : Config) (k n : Imm16),
    (k.toNat ≤ 255 → ∀ i ∈ [Instr.xa k, .xbE k, .xbD k, .xcE k, .xcD k],
      ∃ t, exec i (State.resetFor c) = .next t ∧ t.status = 1 ∧ t.outlen = 0) ∧
    exec (.xmE n) (State.resetFor c) = .next (failed 3 (State.resetFor c)) ∧
    exec (.xmD n) (State.resetFor c) = .next (failed 3 (State.resetFor c))

/-- The invariant holds right after reset, for every legal configuration. -/
def Obligations.InvariantHoldsAtReset : Prop :=
  State.reset.Inv ∧ ∀ c : Config, c.wf = true → (State.resetFor c).Inv

/-- Every step keeps the invariant: KEY, IN and OUT in canonical form inside their sizes (`20_memory.md` R57), OUTLEN ≤ LMAX
(`10_state.md` R29), STATUS one of the words R27 and R162 allow, a result only after success (`60_exceptions.md` R166). -/
def Obligations.StepKeepsInvariant : Prop :=
  ∀ s t : State, s.Inv → step s = .next t → t.Inv

/-! ## The commands -/

/-- `43_single_key_engine.md` R122: the command XA. -/
def Obligations.XaEffect : Prop :=
  Encoded .xa 0 1 ∧
  (∀ seed : Imm16, SingleKeyCommand (.xa seed) seed xa) ∧
  (∀ (seed : Imm16) (s t : State), s.Inv → s.inlen.toNat ≤ s.cfg.lmax → seed.toNat ≤ 255 → exec (.xa seed) s = .next t →
    ∀ j, j < s.inlen.toNat → readOut t j = some (Cells.read s.inBuf j ^^^ sq8^[j] (seedByte seed))) ∧
  IllegalWordsFail ∧
  (∀ s : List Byte, xa s 0 = s ∧ xa s 1 = s.map (· ^^^ 1)) ∧
  (∀ (s : List Byte) (seed : Byte) (j : Nat),
    (seed.toNat % 2 = 0 → 3 ≤ j → (xa s seed)[j]? = s[j]?) ∧
    (seed.toNat % 2 = 1 → 6 ≤ j → (xa s seed)[j]? = s[j]?.map (· ^^^ 1))) ∧
  xa hello 250 = [0xb2, 0x41, 0x7c, 0x6c, 0x6f] ∧ keySequence .a .e hello 250 = [0xfa, 0x24, 0x10, 0x00, 0x00]

/-- `43_single_key_engine.md` section 3 (R123, R124, R125): the commands XB.E and XB.D. The example of XB.D is the spec's own inference
("[derived: from rule R123, inverting the example of rule R124]"). -/
def Obligations.XbEffect : Prop :=
  Encoded .xbE 0 2 ∧ Encoded .xbD 1 2 ∧ IllegalWordsFail ∧
  (∀ seed : Imm16, SingleKeyCommand (.xbE seed) seed (xb · · .e)) ∧
  (∀ seed : Imm16, SingleKeyCommand (.xbD seed) seed (xb · · .d)) ∧
  (∀ (x k : Byte) (m : Mode), outByte .b x k m = x ^^^ k) ∧
  (∀ (k x y : Byte) (m : Mode), nextKey .b k x y m = advance k x y m) ∧
  (∀ (x x' : Byte) (s : List Byte) (m : Mode), (xb (x :: s) 0 m)[0]? = some x ∧
    ∀ seed ∈ ([0, 255, 127, 129, 1] : List Byte),
      (keySequence .b .e (x :: x' :: s) seed)[1]? = some x ∧
      (keySequence .b .d (x :: x' :: s) seed)[1]? = some (x ^^^ seed)) ∧
  (∀ (s : List Byte) (seed : Byte), keySequence .b .d (xb s seed .e) seed = keySequence .b .e s seed) ∧
  keySequence .b .e hello 253 = [0xfd, 0x09, 0x51, 0xa1, 0x41] ∧
  xb hello 253 .e = [0xb5, 0x6c, 0x3d, 0xcd, 0x2e] ∧ xb [0xb5, 0x6c, 0x3d, 0xcd, 0x2e] 253 .d = hello

/-- `43_single_key_engine.md` section 4 (R126, R127, R128): the commands XC.E and XC.D. Both examples are the spec's own inferences
("[derived: from rule R126]"). -/
def Obligations.XcEffect : Prop :=
  Encoded .xcE 0 3 ∧ Encoded .xcD 1 3 ∧ IllegalWordsFail ∧
  (∀ seed : Imm16, SingleKeyCommand (.xcE seed) seed (xc · · .e)) ∧
  (∀ seed : Imm16, SingleKeyCommand (.xcD seed) seed (xc · · .d)) ∧
  (∀ x k : Byte, outByte .c x k .e = swp x ^^^ k ∧ outByte .c x k .d = swp (x ^^^ k)) ∧
  (∀ (k x y : Byte) (m : Mode), nextKey .c k x y m = advance k x y m) ∧
  (∀ (x : Byte) (s : List Byte), (xc (x :: s) 0 .e)[0]? = some (swp x) ∧ (xc (x :: s) 0 .d)[0]? = some (swp x)) ∧
  xc [0x48] 1 .e = [0x85] ∧ xc [0x85] 1 .d = [0x48]

/-- `44_multi_key_engine.md` section 5 (R149, R150): the commands XM.E and XM.D. The two 16-byte examples and the lane 0 example are the
spec's own inferences ("[derived: from rules R142, R143, R146]"). -/
def Obligations.XmEffect : Prop :=
  Encoded .xmE 0 4 ∧ Encoded .xmD 1 4 ∧
  (∀ n : Imm16, MultiKeyCommand (.xmE n) n .e) ∧
  (∀ n : Imm16, MultiKeyCommand (.xmD n) n .d) ∧
  IllegalWordsFail ∧
  (∀ (t : TailPolicy) (p ks : List Byte) (m : Mode), ks ≠ [] →
    (p = [] → xm t p ks m = []) ∧
    (p.length < ks.length → xm .drop p ks m = [] ∧ (xm .keep p ks m).length = p.length) ∧
    (∀ k, ks = [k] → xm t p ks m = xc p k m)) ∧
  (∀ t : TailPolicy,
    xm t [0x48, 0x65, 0x6c, 0x6c, 0x6f, 0x2c, 0x20, 0x57, 0x6f, 0x72, 0x6c, 0x64, 0x21, 0x21, 0x21, 0x21]
        [1, 2, 3, 4, 5, 6, 7, 8] .e
      = [0x85, 0x98, 0x9f, 0x98, 0x9a, 0x1a, 0x17, 0xa3, 0xd7, 0xb5, 0x95, 0x88, 0x0b, 0x36, 0x23, 0x52] ∧
    xm t [0x85, 0x98, 0x9f, 0x98, 0x9a, 0x1a, 0x17, 0xa3, 0xd7, 0xb5, 0x95, 0x88, 0x0b, 0x36, 0x23, 0x52]
        [1, 2, 3, 4, 5, 6, 7, 8] .d
      = [0x48, 0x65, 0x6c, 0x6c, 0x6f, 0x2c, 0x20, 0x57, 0x6f, 0x72, 0x6c, 0x64, 0x21, 0x21, 0x21, 0x21]) ∧
  deal [0x48, 0x65, 0x6c, 0x6c, 0x6f, 0x2c, 0x20, 0x57, 0x6f, 0x72, 0x6c, 0x64, 0x21, 0x21, 0x21, 0x21] 8 0 = [0x48, 0x6f] ∧
  keySequence .c .e [0x48, 0x6f] 1 = [0x01, 0x48] ∧ xc [0x48, 0x6f] 1 .e = [0x85, 0xd7]

/-- `60_exceptions.md` R169: every one of the seven commands, once validation has passed, answers a next state that succeeded, with
the length of its result; and no command and no step ends in a fault. -/
def Obligations.ValidCommandsComplete : Prop :=
  (∀ (k : Imm16) (s : State), s.inlen.toNat ≤ s.cfg.lmax → k.toNat ≤ 255 →
    ∀ i ∈ [Instr.xa k, .xbE k, .xbD k, .xcE k, .xcD k],
      ∃ t, exec i s = .next t ∧ t.status = 1 ∧ t.outlen = s.inlen) ∧
  (∀ (n : Imm16) (s : State), s.inlen.toNat ≤ s.cfg.lmax → 1 ≤ n.toNat → n.toNat ≤ s.cfg.nmax → n.toNat = s.kcnt.toNat →
    (∀ i, i < n.toNat → (Cells.read s.key i).toNat ≤ 255) →
    ∀ i ∈ [Instr.xmE n, .xmD n],
      ∃ t, exec i s = .next t ∧ t.status = 1 ∧ t.outlen.toNat = xmLength s.cfg.tail s.inlen.toNat n.toNat) ∧
  (∀ (i : Instr) (s : State), ∃ t, exec i s = .next t) ∧
  (∀ (s : State) (f : Fault), step s ≠ .fault f)

/-- `20_memory.md` section 4 (R55) as a frame, for all seven commands and whether they succeed or fail: only STATUS, OUTLEN and the bytes
OUT[0..OUTLEN-1] are written. -/
def Obligations.CommandFrame : Prop :=
  ∀ (i : Instr) (s t : State), s.Inv → exec i s = .next t →
    OperandsKept s t ∧ ∀ j, t.outlen.toNat ≤ j → Cells.read t.outBuf j = Cells.read s.outBuf j

/-- `00_scope.md` R12: the result of a command is a function of the command, INLEN, IN[0..INLEN-1] and, for XM.E
and XM.D only, KCNT and KEY[0..N-1], and of nothing else. -/
def Obligations.CommandReadsOnlyItsOperands : Prop :=
  ∀ (i : Instr) (s u t v : State), s.Inv → u.Inv → s.cfg = u.cfg → s.inlen = u.inlen →
    (∀ j, j < s.inlen.toNat → Cells.read s.inBuf j = Cells.read u.inBuf j) →
    (∀ n, i = .xmE n ∨ i = .xmD n → s.kcnt = u.kcnt ∧ ∀ k, k < n.toNat → Cells.read s.key k = Cells.read u.key k) →
    exec i s = .next t → exec i u = .next v →
    t.status = v.status ∧ t.outlen = v.outlen ∧ ∀ j, outByteAt t j = outByteAt v j

/-- `70_reset_and_hazards.md` section 4 (R188) for the machine: after XB.E, XC.E or XA succeeds, the matching command with the same seed on the
bytes OUT showed gives the input back. -/
def Obligations.MachineSingleKeyRoundTrip : Prop :=
  ∀ (k : Imm16) (s t u : State), s.Inv → u.Inv → s.inlen.toNat ≤ s.cfg.lmax → k.toNat ≤ 255 →
    ∀ p ∈ [(Instr.xa k, Instr.xa k), (.xbE k, .xbD k), (.xcE k, .xcD k)],
      exec p.1 s = .next t → u.cfg = s.cfg → u.inlen = t.outlen →
      (∀ j, j < t.outlen.toNat → Cells.read u.inBuf j = outByteAt t j) →
      ∃ v, exec p.2 u = .next v ∧ v.status = 1 ∧ v.outlen = s.inlen ∧
        ∀ j, j < s.inlen.toNat → readOut v j = some (Cells.read s.inBuf j)

/-- `70_reset_and_hazards.md` section 4 (R189, R190) for the machine: after XM.E succeeds, XM.D with the same N and keys on the bytes OUT showed
gives back the first L' input bytes, all of them under KEEP and, under DROP, when N divides the length. -/
def Obligations.MachineMultiKeyRoundTrip : Prop :=
  ∀ (n : Imm16) (s t u : State), s.Inv → u.Inv → multiKeyCheck n s = none →
    exec (.xmE n) s = .next t → u.cfg = s.cfg → u.kcnt = s.kcnt →
    (∀ i, i < n.toNat → Cells.read u.key i = Cells.read s.key i) → u.inlen = t.outlen →
    (∀ j, j < t.outlen.toNat → Cells.read u.inBuf j = outByteAt t j) →
    ∃ v, exec (.xmD n) u = .next v ∧ v.status = 1 ∧
      v.outlen.toNat = xmLength s.cfg.tail s.inlen.toNat n.toNat ∧
      ∀ j, j < xmLength s.cfg.tail s.inlen.toNat n.toNat → readOut v j = some (Cells.read s.inBuf j)

/-! ## The host's accesses -/

/-- `10_state.md` sections 4 and 5 (R25 to R32): what a read of each element returns, and that it changes nothing but the model's own
record of replies (log 4). -/
def Obligations.ReadsReturnTheElement : Prop :=
  ∀ (s : State) (rest : List Access),
    (∀ n, n ≤ 4 → s.pending = .rdCsr n :: rest →
      step s = .next ((s.setPending rest).pushReply (.word (([0, s.status, s.inlen, s.outlen, s.kcnt] : List Word)[n]?.getD 0)))) ∧
    (∀ i, i < s.cfg.nmax → s.pending = .rdKey i :: rest →
      step s = .next ((s.setPending rest).pushReply (.slot (Cells.read s.key i)))) ∧
    (∀ j, j < s.cfg.lmax → s.pending = .rdIn j :: rest →
      step s = .next ((s.setPending rest).pushReply (.byte (Cells.read s.inBuf j)))) ∧
    (∀ j, j < s.cfg.lmax → j < s.outlen.toNat → s.pending = .rdOut j :: rest →
      step s = .next ((s.setPending rest).pushReply (.byte (Cells.read s.outBuf j)))) ∧
    (∀ j, j < s.cfg.lmax → s.outlen.toNat ≤ j → s.pending = .rdOut j :: rest →
      step s = .next ((s.setPending rest).pushReply (.byte 0)))

/-- `10_state.md` R36: a write to a read-only register changes nothing, a read of CMD returns 0 and executes nothing, a read has no
side effect on any register. -/
def Obligations.ReadOnlyAndWriteOnlyRegisters : Prop :=
  (∀ (s : State) (rest : List Access) (v : Word) (b : Byte) (j : Nat), j < s.cfg.lmax →
    (s.pending = .wrCsr 1 v :: rest ∨ s.pending = .wrCsr 3 v :: rest ∨ s.pending = .wrOut j b :: rest) →
    step s = .next (s.setPending rest)) ∧
  (∀ (s : State) (rest : List Access), s.pending = .rdCsr 0 :: rest →
    step s = .next ((s.setPending rest).pushReply (.word 0))) ∧
  (∀ (s t : State) (a : Access) (rest : List Access) (n : Nat), s.pending = a :: rest →
    (a = .rdCsr n ∨ a = .rdKey n ∨ a = .rdIn n ∨ a = .rdOut n) → step s = .next t →
    ∃ r, t = (s.setPending rest).pushReply r)

/-- `10_state.md` sections 2, 4, 5 (R22, R28, R30, R31): a write to INLEN, KCNT, KEY[i] or IN[j] stores the value as written, whatever it is, and
changes no other element. -/
def Obligations.WritesStoreOneElement : Prop :=
  ∀ (s : State) (rest : List Access), s.Inv →
    (∀ v, s.pending = .wrCsr 2 v :: rest → step s = .next ((s.setPending rest).setInlen v)) ∧
    (∀ v, s.pending = .wrCsr 4 v :: rest → step s = .next ((s.setPending rest).setKcnt v)) ∧
    (∀ i v, i < s.cfg.nmax → s.pending = .wrKey i v :: rest →
      ∃ k, step s = .next ((s.setPending rest).setKey k) ∧ Cells.read k i = v ∧
        ∀ i', i' ≠ i → Cells.read k i' = Cells.read s.key i') ∧
    (∀ j v, j < s.cfg.lmax → s.pending = .wrIn j v :: rest →
      ∃ m, step s = .next ((s.setPending rest).setInBuf m) ∧ Cells.read m j = v ∧
        ∀ j', j' ≠ j → Cells.read m j' = Cells.read s.inBuf j')

/-- INLEN, KCNT, each KEY[i] and each IN[j] stay until the host overwrites that element or the engine is reset, so a command does not
consume its operands (`20_memory.md` R56); OUT, OUTLEN and STATUS change by a write to CMD or a reset only (`10_state.md` R27, R29, R32,
`20_memory.md` R50, R55). That no step changes the configuration is the model's way of holding it (log 1; `10_state.md` R35). -/
def Obligations.WhoChangesWhat : Prop :=
  (∀ s t : State, s.Inv → step s = .next t →
    t.cfg = s.cfg ∧
    (s.pending.head? ≠ some .reset →
      (t.inlen ≠ s.inlen → s.pending.head? = some (.wrCsr 2 t.inlen)) ∧
      (t.kcnt ≠ s.kcnt → s.pending.head? = some (.wrCsr 4 t.kcnt)) ∧
      (∀ i, Cells.read t.key i ≠ Cells.read s.key i → s.pending.head? = some (.wrKey i (Cells.read t.key i))) ∧
      (∀ j, Cells.read t.inBuf j ≠ Cells.read s.inBuf j → s.pending.head? = some (.wrIn j (Cells.read t.inBuf j))) ∧
      (t.status ≠ s.status ∨ t.outlen ≠ s.outlen ∨ t.outBuf ≠ s.outBuf → ∃ w, s.pending.head? = some (.wrCsr 0 w)))) ∧
  (∀ (i i' : Instr) (s t : State), s.Inv → exec i s = .next t →
    ∃ u v, exec i' t = .next u ∧ exec i' s = .next v ∧ u.status = v.status ∧ u.outlen = v.outlen ∧
      ∀ j, outByteAt u j = outByteAt v j)

/-- `10_state.md` R27: the fields of STATUS. Its reserved bits read 0 and ECODE is 0 when ERR is 0; DONE is set by every command and
cleared by nothing but reset; no command reads it; a host write to it is ignored. -/
def Obligations.StatusFields : Prop :=
  (∀ s : State, s.Inv → s.status.extractLsb' 2 2 = 0 ∧ s.status.extractLsb' 8 24 = 0 ∧
    (s.status.getLsbD 1 = false → s.status.extractLsb' 4 4 = 0)) ∧
  (∀ (s t : State) (w : Word) (rest : List Access), s.pending = .wrCsr 0 w :: rest → step s = .next t →
    t.status.getLsbD 0 = true ∧ (t.status.getLsbD 1 = true ↔ t.status.extractLsb' 4 4 ≠ 0) ∧
    (t.status.getLsbD 1 = false ↔ ∃ i, decode w = .ok i ∧ ∃ o, t = complete o (s.setPending rest)) ∧
    (t.status.getLsbD 1 = true ↔ ∃ c, t = raise c (s.setPending rest))) ∧
  (∀ c : Config, (State.resetFor c).status.getLsbD 0 = false) ∧
  (∀ s t : State, step s = .next t → s.status.getLsbD 0 = true → s.pending.head? ≠ some .reset → t.status.getLsbD 0 = true) ∧
  (∀ s t : State, step s = .next t → t.status ≠ s.status →
    s.pending.head? = some .reset ∨ ∃ w, s.pending.head? = some (.wrCsr 0 w)) ∧
  (∀ (i : Instr) (s : State) (v : Word), exec i (s.setStatus v) = exec i s)

/-- `20_memory.md` R53: reads and writes of operands are idempotent; writing the same word to CMD twice executes it twice, with the
same result. -/
def Obligations.RepeatedAccesses : Prop :=
  (∀ (s t : State) (a : Access) (n : Nat), (a = .rdCsr n ∨ a = .rdKey n ∨ a = .rdIn n ∨ a = .rdOut n) → serve a s = .next t →
    ∃ r, t = s.pushReply r ∧ serve a t = .next (t.pushReply r)) ∧
  (∀ (s t : State) (a : Access) (n : Nat) (w : Word) (k : Imm16) (b : Byte), s.Inv →
    (a = .wrCsr 2 w ∨ a = .wrCsr 4 w ∨ a = .wrKey n k ∨ a = .wrIn n b) → serve a s = .next t → serve a t = .next t) ∧
  (∀ (s t : State) (w : Word), s.Inv → serve (.wrCsr 0 w) s = .next t → serve (.wrCsr 0 w) t = .next t)

/-- `10_state.md` section 5 (R32): no byte of an earlier command's result can be read. Two engines that show the host the same thing go on
showing it the same thing whatever it does, though the bytes behind the gate of OUT differ. -/
def Obligations.StaleOutputIsInvisible : Prop :=
  ∀ (n : Nat) (s u : State), s.Inv → u.Inv → s.SameToHost u →
    (∀ t, run n s = .next t → ∃ v, run n u = .next v ∧ State.SameToHost t v) ∧
    (∀ r, run n s = .refused r → run n u = .refused r)

/-- `30_encoding.md` section 6: LDIN and LDKEYS leave the operands they name, from any state, and nothing else of the engine changes. -/
def Obligations.LoadsLeaveTheOperands : Prop :=
  (∀ (s : State) (bs : List Byte) (rest : List Access), s.Inv → bs.length ≤ s.cfg.lmax →
    s.pending = ldin bs ++ rest →
    ∃ m, run (ldin bs).length s
        = .next (((s.setPending rest).setInBuf m).setInlen (BitVec.ofNat 32 bs.length)) ∧
      ∀ j, Cells.read m j = (bs[j]?).getD (Cells.read s.inBuf j)) ∧
  (∀ (s : State) (ks : List Imm16) (rest : List Access), s.Inv → ks.length ≤ s.cfg.nmax →
    s.pending = ldkeys ks ++ rest →
    ∃ m, run (ldkeys ks).length s
        = .next (((s.setPending rest).setKey m).setKcnt (BitVec.ofNat 32 ks.length)) ∧
      ∀ i, Cells.read m i = (ks[i]?).getD (Cells.read s.key i))

/-- `30_encoding.md` section 6 (R81): what the reads of EXPECT return right after a command. After a success they return STATUS =
0x00000001, OUTLEN and OUT[0..OUTLEN-1]; after an error with code `code`, STATUS = 0x00000003 + code * 16 and OUTLEN = 0. They change
nothing but the model's lists (logs 3, 4). `WR CSR.CMD, word` runs its command. -/
def Obligations.ExpectReadsReturnTheOutcome : Prop :=
  (∀ (s : State) (i : Instr) (rest : List Access), s.pending = command i ++ rest → step s = exec i (s.setPending rest)) ∧
  (∀ (s t : State) (i : Instr) (o : List Byte) (rest : List Access), s.pending = command i ++ expectOkReads o.length ++ rest →
    step s = .next t → Succeeded o (s.setPending (expectOkReads o.length ++ rest)) t →
    run (command i ++ expectOkReads o.length).length s
      = .next { t with pending := rest, replies := (expectOkReplies o).reverse ++ s.replies }) ∧
  (∀ (s : State) (w : Word) (code : Nat) (rest : List Access), s.pending = .wrCsr 0 w :: (expectErrReads ++ rest) →
    step s = .next (failed code (s.setPending (expectErrReads ++ rest))) →
    run (1 + expectErrReads.length) s
      = .next { failed code s with pending := rest, replies := (expectErrReplies code).reverse ++ s.replies }) ∧
  (∀ o : List Byte, expectOkReplies o = [.word 0x00000001, .word (BitVec.ofNat 32 o.length)] ++ o.map .byte) ∧
  expectErrReplies 1 = [.word 0x00000013, .word 0] ∧ expectErrReplies 2 = [.word 0x00000023, .word 0] ∧
  expectErrReplies 3 = [.word 0x00000033, .word 0] ∧ expectErrReplies 4 = [.word 0x00000043, .word 0]
end

