-- ==== Sys2Proof/Laws/Cells.lean ====
section
/-! SUPPORT. The sparse file of elements: reading after writing, the canonical form and that every operation keeps it, and that
equal files in canonical form are equal data. -/

namespace Sys2Proof.Machine

variable {w : Nat}

@[simp] theorem Cells.read_nil (a : Nat) : Cells.read ([] : Cells w) a = 0 := rfl

theorem Cells.read_cons (b : Nat) (v : BitVec w) (m : Cells w) (a : Nat) :
    Cells.read ((b, v) :: m) a = if a = b then v else Cells.read m a := rfl

theorem Cells.wfFrom_cons {hi lo b : Nat} {v : BitVec w} {m : Cells w} :
    Cells.wfFrom hi lo ((b, v) :: m) = true ↔ lo ≤ b ∧ b < hi ∧ v ≠ 0 ∧ Cells.wfFrom hi (b + 1) m = true := by
  rw [Cells.wfFrom, Bool.and_eq_true, Bool.and_eq_true, Bool.and_eq_true, decide_eq_true_eq, decide_eq_true_eq, decide_eq_true_eq,
    and_assoc, and_assoc]
  rfl

theorem Cells.wfFrom_mono {hi lo lo' : Nat} {m : Cells w} (h : Cells.wfFrom hi lo m = true) (hl : lo' ≤ lo) :
    Cells.wfFrom hi lo' m = true := by
  cases m with
  | nil => rfl
  | cons p m =>
    obtain ⟨b, v⟩ := p
    rw [Cells.wfFrom_cons] at h ⊢
    exact ⟨by omega, h.2⟩

/-- Below the least listed index everything reads 0. -/
theorem Cells.read_below {hi lo a : Nat} {m : Cells w} (h : Cells.wfFrom hi lo m = true) (ha : a < lo) :
    Cells.read m a = 0 := by
  induction m generalizing lo with
  | nil => rfl
  | cons p m ih =>
    obtain ⟨b, v⟩ := p
    rw [Cells.wfFrom_cons] at h
    rw [Cells.read_cons, if_neg (by omega)]
    exact ih h.2.2.2 (by omega)

/-- At and above the size everything reads 0. -/
theorem Cells.read_above {hi lo a : Nat} {m : Cells w} (h : Cells.wfFrom hi lo m = true) (ha : hi ≤ a) :
    Cells.read m a = 0 := by
  induction m generalizing lo with
  | nil => rfl
  | cons p m ih =>
    obtain ⟨b, v⟩ := p
    rw [Cells.wfFrom_cons] at h
    rw [Cells.read_cons, if_neg (by omega)]
    exact ih h.2.2.2

theorem Cells.read_write_from {hi lo : Nat} {m : Cells w} (h : Cells.wfFrom hi lo m = true) (a : Nat) (v : BitVec w) (a' : Nat) :
    Cells.read (Cells.write m a v) a' = if a' = a then v else Cells.read m a' := by
  induction m generalizing lo with
  | nil =>
    unfold Cells.write
    split
    · rename_i hv
      subst hv
      split <;> rfl
    · rfl
  | cons p m ih =>
    obtain ⟨b, u⟩ := p
    rw [Cells.wfFrom_cons] at h
    unfold Cells.write
    split
    · have h0 : Cells.read ((b, u) :: m) a = 0 :=
        Cells.read_below (hi := hi) (lo := b) (by rw [Cells.wfFrom_cons]; exact ⟨le_refl _, h.2⟩) ‹_›
      split
      · by_cases ha : a' = a
        · simp_all [unlisted]
        · rw [if_neg ha]
      · rw [Cells.read_cons]
    · split
      · rename_i hab
        subst hab
        have h0 : Cells.read m a = 0 := Cells.read_below h.2.2.2 (by omega)
        split
        · by_cases ha : a' = a <;> simp_all [unlisted, Cells.read_cons]
        · by_cases ha : a' = a <;> simp [ha, Cells.read_cons]
      · rw [Cells.read_cons, ih h.2.2.2, Cells.read_cons]
        split_ifs <;> first | rfl | omega

/-- A read after a write to the same place gives the value written, and a write leaves every other place alone. -/
theorem Cells.read_write {n : Nat} {m : Cells w} (h : Cells.wf n m = true) (a : Nat) (v : BitVec w) (a' : Nat) :
    Cells.read (Cells.write m a v) a' = if a' = a then v else Cells.read m a' := Cells.read_write_from h a v a'

theorem Cells.wfFrom_write {hi lo : Nat} {m : Cells w} (h : Cells.wfFrom hi lo m = true) {a : Nat} (hl : lo ≤ a) (ha : a < hi)
    (v : BitVec w) : Cells.wfFrom hi lo (Cells.write m a v) = true := by
  induction m generalizing lo with
  | nil =>
    unfold Cells.write
    split
    · rfl
    · exact Cells.wfFrom_cons.2 ⟨hl, ha, ‹_›, rfl⟩
  | cons p m ih =>
    obtain ⟨b, u⟩ := p
    have h' := h
    rw [Cells.wfFrom_cons] at h
    unfold Cells.write
    split
    · split
      · exact h'
      · rw [Cells.wfFrom_cons, Cells.wfFrom_cons]
        exact ⟨hl, ha, ‹_›, by omega, h.2⟩
    · split
      · rename_i hab
        subst hab
        split
        · exact Cells.wfFrom_mono h.2.2.2 (by omega)
        · rw [Cells.wfFrom_cons]
          exact ⟨hl, ha, ‹_›, h.2.2.2⟩
      · rw [Cells.wfFrom_cons]
        exact ⟨h.1, h.2.1, h.2.2.1, ih h.2.2.2 (by omega)⟩

/-- Writing keeps the canonical form. -/
theorem Cells.wf_write {n : Nat} {m : Cells w} (h : Cells.wf n m = true) {a : Nat} (ha : a < n) (v : BitVec w) :
    Cells.wf n (Cells.write m a v) = true := Cells.wfFrom_write h (Nat.zero_le a) ha v

theorem Cells.wf_nil (n : Nat) : Cells.wf n ([] : Cells w) = true := rfl

theorem Cells.read_above_wf {n a : Nat} {m : Cells w} (h : Cells.wf n m = true) (ha : n ≤ a) : Cells.read m a = 0 :=
  Cells.read_above h ha

theorem Cells.ext_from {hi hi' lo : Nat} {m m' : Cells w} (h : Cells.wfFrom hi lo m = true) (h' : Cells.wfFrom hi' lo m' = true)
    (he : ∀ a, Cells.read m a = Cells.read m' a) : m = m' := by
  induction m generalizing lo m' with
  | nil =>
    cases m' with
    | nil => rfl
    | cons p m' =>
      obtain ⟨b, v⟩ := p
      rw [Cells.wfFrom_cons] at h'
      have := he b
      simp [Cells.read_cons] at this
      exact absurd this.symm h'.2.2.1
  | cons p m ih =>
    obtain ⟨b, v⟩ := p
    rw [Cells.wfFrom_cons] at h
    cases m' with
    | nil =>
      have := he b
      simp [Cells.read_cons] at this
      exact absurd this h.2.2.1
    | cons p' m' =>
      obtain ⟨b', v'⟩ := p'
      rw [Cells.wfFrom_cons] at h'
      have hb : b = b' := by
        rcases Nat.lt_trichotomy b b' with hlt | heq | hgt
        · have := he b
          rw [Cells.read_cons, if_pos rfl, Cells.read_cons, if_neg (by omega),
            Cells.read_below h'.2.2.2 (by omega)] at this
          exact absurd this h.2.2.1
        · exact heq
        · have := he b'
          rw [Cells.read_cons, if_neg (by omega), Cells.read_cons, if_pos rfl,
            Cells.read_below h.2.2.2 (by omega)] at this
          exact absurd this.symm h'.2.2.1
      subst hb
      have hv : v = v' := by
        have := he b
        simpa [Cells.read_cons] using this
      subst hv
      rw [ih h.2.2.2 h'.2.2.2]
      intro a
      by_cases ha : a = b
      · subst ha
        rw [Cells.read_below h.2.2.2 (by omega), Cells.read_below h'.2.2.2 (by omega)]
      · have := he a
        simpa [Cells.read_cons, ha] using this

/-- Files in canonical form that read the same are the same data. -/
theorem Cells.ext {n n' : Nat} {m m' : Cells w} (h : Cells.wf n m = true) (h' : Cells.wf n' m' = true)
    (he : ∀ a, Cells.read m a = Cells.read m' a) : m = m' := Cells.ext_from h h' he

/-- Writing the same value twice is the same as writing it once. -/
theorem Cells.write_write {n : Nat} {m : Cells w} (h : Cells.wf n m = true) {a : Nat} (ha : a < n) (v : BitVec w) :
    Cells.write (Cells.write m a v) a v = Cells.write m a v := by
  have h1 := Cells.wf_write h ha v
  refine Cells.ext (Cells.wf_write h1 ha v) h1 fun a' => ?_
  rw [Cells.read_write h1, Cells.read_write h]
  split <;> rfl

/-! ## Writing a sequence -/

theorem wf_writeSeq {n : Nat} {m : Memory} (h : Cells.wf n m = true) (at' : Nat) (o : List Byte) (hl : at' + o.length ≤ n) :
    Cells.wf n (writeSeq m at' o) = true := by
  induction o generalizing m at' with
  | nil => exact h
  | cons y o ih =>
    simp only [List.length_cons] at hl
    exact ih (Cells.wf_write h (by omega) y) (at' + 1) (by omega)

/-- After writing `o` from index `at'` on, the bytes of `o` stand there and every other byte is as it was. -/
theorem read_writeSeq {n : Nat} {m : Memory} (h : Cells.wf n m = true) (at' : Nat) (o : List Byte) (hl : at' + o.length ≤ n) (j : Nat) :
    Cells.read (writeSeq m at' o) j = if at' ≤ j then (o[j - at']?).getD (Cells.read m j) else Cells.read m j := by
  induction o generalizing m at' with
  | nil => simp [writeSeq]
  | cons y o ih =>
    simp only [List.length_cons] at hl
    rw [writeSeq, ih (Cells.wf_write h (by omega) y) (at' + 1) (by omega), Cells.read_write h]
    rcases Nat.lt_trichotomy j at' with hlt | heq | hgt
    · rw [if_neg (by omega), if_neg (by omega), if_neg (by omega)]
    · subst heq
      simp
    · obtain ⟨d, rfl⟩ := Nat.exists_eq_add_of_lt hgt
      have e1 : at' + d + 1 - at' = d + 1 := by omega
      have e2 : at' + d + 1 - (at' + 1) = d := by omega
      have e3 : ¬ at' + d + 1 = at' := by omega
      have e4 : at' + 1 ≤ at' + d + 1 := by omega
      have e5 : at' ≤ at' + d + 1 := by omega
      simp only [e1, e2, e4, e5, if_true, if_neg e3, List.getElem?_cons_succ]

/-- Writing the same sequence twice is the same as writing it once. -/
theorem writeSeq_writeSeq {n : Nat} {m : Memory} (h : Cells.wf n m = true) (o : List Byte) (hl : o.length ≤ n) :
    writeSeq (writeSeq m 0 o) 0 o = writeSeq m 0 o := by
  have h1 := wf_writeSeq h 0 o (by omega)
  refine Cells.ext (wf_writeSeq h1 0 o (by omega)) h1 fun a => ?_
  rw [read_writeSeq h1 0 o (by omega), read_writeSeq h 0 o (by omega)]
  rcases h2 : o[a - 0]? with _ | b <;> simp

@[simp] theorem length_readSeq (m : Memory) (n : Nat) : (readSeq m n).length = n := by simp [readSeq]

theorem getElem?_readSeq (m : Memory) (n j : Nat) : (readSeq m n)[j]? = if j < n then some (Cells.read m j) else none := by
  by_cases h : j < n <;> simp [readSeq, h]

end Sys2Proof.Machine
end

