-- ==== Sys2Proof/Laws/Codec.lean ====
section
/-! SUPPORT. The host-side codec and the pseudo-operations: what a hexadecimal digit is, one pair of digits at a time, lengths of
access lists. -/

namespace Sys2Proof.Machine

@[simp] theorem bytesToHex_nil : bytesToHex [] = [] := rfl

theorem bytesToHex_cons (b : Byte) (bs : List Byte) : bytesToHex (b :: bs) = byteToHex b ++ bytesToHex bs := by
  simp [bytesToHex]

/-- The digit `bytesToHex` writes for a number below 16 is a digit of that value, whatever `upper`. -/
theorem hexValue_hexDigit (upper : Bool) (n : Nat) (h : n < 16) : hexValue upper (hexDigit n) = some n := by
  have all : ∀ (u : Bool) (k : Fin 16), hexValue u (hexDigit k.1) = some k.1 := by decide
  exact all upper ⟨n, h⟩

/-- One pair of digits is one byte. -/
theorem hexToBytes_pair {upper : Bool} {h l : Char} {a b : Nat} (hh : hexValue upper h = some a) (hl : hexValue upper l = some b)
    (rest : List Char) : hexToBytes upper (h :: l :: rest) = (hexToBytes upper rest).map (BitVec.ofNat 8 (16 * a + b) :: ·) := by
  simp only [hexToBytes, hh, hl]
  cases hexToBytes upper rest <;> rfl

@[simp] theorem length_command (i : Instr) : (command i).length = 1 := rfl

@[simp] theorem length_expectOkReads (n : Nat) : (expectOkReads n).length = n + 2 := by
  simp [expectOkReads]

end Sys2Proof.Machine
end

