-- ==== Sys2Proof/Laws/State.lean ====
section
/-! SUPPORT. What each named update of State leaves in each field: one lemma a field. -/

namespace Sys2Proof.Machine

variable (s : State)

@[simp] theorem State.setStatus_cfg (v : Word) : (s.setStatus v).cfg = s.cfg := rfl
@[simp] theorem State.setStatus_status (v : Word) : (s.setStatus v).status = v := rfl
@[simp] theorem State.setStatus_inlen (v : Word) : (s.setStatus v).inlen = s.inlen := rfl
@[simp] theorem State.setStatus_outlen (v : Word) : (s.setStatus v).outlen = s.outlen := rfl
@[simp] theorem State.setStatus_kcnt (v : Word) : (s.setStatus v).kcnt = s.kcnt := rfl
@[simp] theorem State.setStatus_key (v : Word) : (s.setStatus v).key = s.key := rfl
@[simp] theorem State.setStatus_inBuf (v : Word) : (s.setStatus v).inBuf = s.inBuf := rfl
@[simp] theorem State.setStatus_outBuf (v : Word) : (s.setStatus v).outBuf = s.outBuf := rfl
@[simp] theorem State.setStatus_pending (v : Word) : (s.setStatus v).pending = s.pending := rfl
@[simp] theorem State.setStatus_replies (v : Word) : (s.setStatus v).replies = s.replies := rfl

@[simp] theorem State.setInlen_cfg (v : Word) : (s.setInlen v).cfg = s.cfg := rfl
@[simp] theorem State.setInlen_status (v : Word) : (s.setInlen v).status = s.status := rfl
@[simp] theorem State.setInlen_inlen (v : Word) : (s.setInlen v).inlen = v := rfl
@[simp] theorem State.setInlen_outlen (v : Word) : (s.setInlen v).outlen = s.outlen := rfl
@[simp] theorem State.setInlen_kcnt (v : Word) : (s.setInlen v).kcnt = s.kcnt := rfl
@[simp] theorem State.setInlen_key (v : Word) : (s.setInlen v).key = s.key := rfl
@[simp] theorem State.setInlen_inBuf (v : Word) : (s.setInlen v).inBuf = s.inBuf := rfl
@[simp] theorem State.setInlen_outBuf (v : Word) : (s.setInlen v).outBuf = s.outBuf := rfl
@[simp] theorem State.setInlen_pending (v : Word) : (s.setInlen v).pending = s.pending := rfl
@[simp] theorem State.setInlen_replies (v : Word) : (s.setInlen v).replies = s.replies := rfl

@[simp] theorem State.setOutlen_cfg (v : Word) : (s.setOutlen v).cfg = s.cfg := rfl
@[simp] theorem State.setOutlen_status (v : Word) : (s.setOutlen v).status = s.status := rfl
@[simp] theorem State.setOutlen_inlen (v : Word) : (s.setOutlen v).inlen = s.inlen := rfl
@[simp] theorem State.setOutlen_outlen (v : Word) : (s.setOutlen v).outlen = v := rfl
@[simp] theorem State.setOutlen_kcnt (v : Word) : (s.setOutlen v).kcnt = s.kcnt := rfl
@[simp] theorem State.setOutlen_key (v : Word) : (s.setOutlen v).key = s.key := rfl
@[simp] theorem State.setOutlen_inBuf (v : Word) : (s.setOutlen v).inBuf = s.inBuf := rfl
@[simp] theorem State.setOutlen_outBuf (v : Word) : (s.setOutlen v).outBuf = s.outBuf := rfl
@[simp] theorem State.setOutlen_pending (v : Word) : (s.setOutlen v).pending = s.pending := rfl
@[simp] theorem State.setOutlen_replies (v : Word) : (s.setOutlen v).replies = s.replies := rfl

@[simp] theorem State.setKcnt_cfg (v : Word) : (s.setKcnt v).cfg = s.cfg := rfl
@[simp] theorem State.setKcnt_status (v : Word) : (s.setKcnt v).status = s.status := rfl
@[simp] theorem State.setKcnt_inlen (v : Word) : (s.setKcnt v).inlen = s.inlen := rfl
@[simp] theorem State.setKcnt_outlen (v : Word) : (s.setKcnt v).outlen = s.outlen := rfl
@[simp] theorem State.setKcnt_kcnt (v : Word) : (s.setKcnt v).kcnt = v := rfl
@[simp] theorem State.setKcnt_key (v : Word) : (s.setKcnt v).key = s.key := rfl
@[simp] theorem State.setKcnt_inBuf (v : Word) : (s.setKcnt v).inBuf = s.inBuf := rfl
@[simp] theorem State.setKcnt_outBuf (v : Word) : (s.setKcnt v).outBuf = s.outBuf := rfl
@[simp] theorem State.setKcnt_pending (v : Word) : (s.setKcnt v).pending = s.pending := rfl
@[simp] theorem State.setKcnt_replies (v : Word) : (s.setKcnt v).replies = s.replies := rfl

@[simp] theorem State.setKey_cfg (k : Cells 16) : (s.setKey k).cfg = s.cfg := rfl
@[simp] theorem State.setKey_status (k : Cells 16) : (s.setKey k).status = s.status := rfl
@[simp] theorem State.setKey_inlen (k : Cells 16) : (s.setKey k).inlen = s.inlen := rfl
@[simp] theorem State.setKey_outlen (k : Cells 16) : (s.setKey k).outlen = s.outlen := rfl
@[simp] theorem State.setKey_kcnt (k : Cells 16) : (s.setKey k).kcnt = s.kcnt := rfl
@[simp] theorem State.setKey_key (k : Cells 16) : (s.setKey k).key = k := rfl
@[simp] theorem State.setKey_inBuf (k : Cells 16) : (s.setKey k).inBuf = s.inBuf := rfl
@[simp] theorem State.setKey_outBuf (k : Cells 16) : (s.setKey k).outBuf = s.outBuf := rfl
@[simp] theorem State.setKey_pending (k : Cells 16) : (s.setKey k).pending = s.pending := rfl
@[simp] theorem State.setKey_replies (k : Cells 16) : (s.setKey k).replies = s.replies := rfl

@[simp] theorem State.setInBuf_cfg (m : Memory) : (s.setInBuf m).cfg = s.cfg := rfl
@[simp] theorem State.setInBuf_status (m : Memory) : (s.setInBuf m).status = s.status := rfl
@[simp] theorem State.setInBuf_inlen (m : Memory) : (s.setInBuf m).inlen = s.inlen := rfl
@[simp] theorem State.setInBuf_outlen (m : Memory) : (s.setInBuf m).outlen = s.outlen := rfl
@[simp] theorem State.setInBuf_kcnt (m : Memory) : (s.setInBuf m).kcnt = s.kcnt := rfl
@[simp] theorem State.setInBuf_key (m : Memory) : (s.setInBuf m).key = s.key := rfl
@[simp] theorem State.setInBuf_inBuf (m : Memory) : (s.setInBuf m).inBuf = m := rfl
@[simp] theorem State.setInBuf_outBuf (m : Memory) : (s.setInBuf m).outBuf = s.outBuf := rfl
@[simp] theorem State.setInBuf_pending (m : Memory) : (s.setInBuf m).pending = s.pending := rfl
@[simp] theorem State.setInBuf_replies (m : Memory) : (s.setInBuf m).replies = s.replies := rfl

@[simp] theorem State.setOutBuf_cfg (m : Memory) : (s.setOutBuf m).cfg = s.cfg := rfl
@[simp] theorem State.setOutBuf_status (m : Memory) : (s.setOutBuf m).status = s.status := rfl
@[simp] theorem State.setOutBuf_inlen (m : Memory) : (s.setOutBuf m).inlen = s.inlen := rfl
@[simp] theorem State.setOutBuf_outlen (m : Memory) : (s.setOutBuf m).outlen = s.outlen := rfl
@[simp] theorem State.setOutBuf_kcnt (m : Memory) : (s.setOutBuf m).kcnt = s.kcnt := rfl
@[simp] theorem State.setOutBuf_key (m : Memory) : (s.setOutBuf m).key = s.key := rfl
@[simp] theorem State.setOutBuf_inBuf (m : Memory) : (s.setOutBuf m).inBuf = s.inBuf := rfl
@[simp] theorem State.setOutBuf_outBuf (m : Memory) : (s.setOutBuf m).outBuf = m := rfl
@[simp] theorem State.setOutBuf_pending (m : Memory) : (s.setOutBuf m).pending = s.pending := rfl
@[simp] theorem State.setOutBuf_replies (m : Memory) : (s.setOutBuf m).replies = s.replies := rfl

@[simp] theorem State.setPending_cfg (as : List Access) : (s.setPending as).cfg = s.cfg := rfl
@[simp] theorem State.setPending_status (as : List Access) : (s.setPending as).status = s.status := rfl
@[simp] theorem State.setPending_inlen (as : List Access) : (s.setPending as).inlen = s.inlen := rfl
@[simp] theorem State.setPending_outlen (as : List Access) : (s.setPending as).outlen = s.outlen := rfl
@[simp] theorem State.setPending_kcnt (as : List Access) : (s.setPending as).kcnt = s.kcnt := rfl
@[simp] theorem State.setPending_key (as : List Access) : (s.setPending as).key = s.key := rfl
@[simp] theorem State.setPending_inBuf (as : List Access) : (s.setPending as).inBuf = s.inBuf := rfl
@[simp] theorem State.setPending_outBuf (as : List Access) : (s.setPending as).outBuf = s.outBuf := rfl
@[simp] theorem State.setPending_pending (as : List Access) : (s.setPending as).pending = as := rfl
@[simp] theorem State.setPending_replies (as : List Access) : (s.setPending as).replies = s.replies := rfl

@[simp] theorem State.pushReply_cfg (r : Reply) : (s.pushReply r).cfg = s.cfg := rfl
@[simp] theorem State.pushReply_status (r : Reply) : (s.pushReply r).status = s.status := rfl
@[simp] theorem State.pushReply_inlen (r : Reply) : (s.pushReply r).inlen = s.inlen := rfl
@[simp] theorem State.pushReply_outlen (r : Reply) : (s.pushReply r).outlen = s.outlen := rfl
@[simp] theorem State.pushReply_kcnt (r : Reply) : (s.pushReply r).kcnt = s.kcnt := rfl
@[simp] theorem State.pushReply_key (r : Reply) : (s.pushReply r).key = s.key := rfl
@[simp] theorem State.pushReply_inBuf (r : Reply) : (s.pushReply r).inBuf = s.inBuf := rfl
@[simp] theorem State.pushReply_outBuf (r : Reply) : (s.pushReply r).outBuf = s.outBuf := rfl
@[simp] theorem State.pushReply_pending (r : Reply) : (s.pushReply r).pending = s.pending := rfl
@[simp] theorem State.pushReply_replies (r : Reply) : (s.pushReply r).replies = r :: s.replies := rfl

@[simp] theorem raise_cfg (c : Cause) : (raise c s).cfg = s.cfg := rfl
@[simp] theorem raise_status (c : Cause) : (raise c s).status = statusFailure c := rfl
@[simp] theorem raise_inlen (c : Cause) : (raise c s).inlen = s.inlen := rfl
@[simp] theorem raise_outlen (c : Cause) : (raise c s).outlen = 0 := rfl
@[simp] theorem raise_kcnt (c : Cause) : (raise c s).kcnt = s.kcnt := rfl
@[simp] theorem raise_key (c : Cause) : (raise c s).key = s.key := rfl
@[simp] theorem raise_inBuf (c : Cause) : (raise c s).inBuf = s.inBuf := rfl
@[simp] theorem raise_outBuf (c : Cause) : (raise c s).outBuf = s.outBuf := rfl
@[simp] theorem raise_pending (c : Cause) : (raise c s).pending = s.pending := rfl
@[simp] theorem raise_replies (c : Cause) : (raise c s).replies = s.replies := rfl

@[simp] theorem complete_cfg (o : List Byte) : (complete o s).cfg = s.cfg := rfl
@[simp] theorem complete_status (o : List Byte) : (complete o s).status = statusSuccess := rfl
@[simp] theorem complete_inlen (o : List Byte) : (complete o s).inlen = s.inlen := rfl
@[simp] theorem complete_outlen (o : List Byte) : (complete o s).outlen = BitVec.ofNat 32 o.length := rfl
@[simp] theorem complete_kcnt (o : List Byte) : (complete o s).kcnt = s.kcnt := rfl
@[simp] theorem complete_key (o : List Byte) : (complete o s).key = s.key := rfl
@[simp] theorem complete_inBuf (o : List Byte) : (complete o s).inBuf = s.inBuf := rfl
@[simp] theorem complete_outBuf (o : List Byte) : (complete o s).outBuf = writeSeq s.outBuf 0 o := rfl
@[simp] theorem complete_pending (o : List Byte) : (complete o s).pending = s.pending := rfl
@[simp] theorem complete_replies (o : List Byte) : (complete o s).replies = s.replies := rfl

@[simp] theorem resetEngine_cfg : (resetEngine s).cfg = s.cfg := rfl
@[simp] theorem resetEngine_status : (resetEngine s).status = 0 := rfl
@[simp] theorem resetEngine_inlen : (resetEngine s).inlen = 0 := rfl
@[simp] theorem resetEngine_outlen : (resetEngine s).outlen = 0 := rfl
@[simp] theorem resetEngine_kcnt : (resetEngine s).kcnt = 0 := rfl
@[simp] theorem resetEngine_key : (resetEngine s).key = [] := rfl
@[simp] theorem resetEngine_inBuf : (resetEngine s).inBuf = [] := rfl
@[simp] theorem resetEngine_outBuf : (resetEngine s).outBuf = [] := rfl
@[simp] theorem resetEngine_pending : (resetEngine s).pending = s.pending := rfl
@[simp] theorem resetEngine_replies : (resetEngine s).replies = s.replies := rfl

@[simp] theorem State.resetFor_cfg (c : Config) : (State.resetFor c).cfg = c := rfl
@[simp] theorem State.resetFor_status (c : Config) : (State.resetFor c).status = 0 := rfl
@[simp] theorem State.resetFor_inlen (c : Config) : (State.resetFor c).inlen = 0 := rfl
@[simp] theorem State.resetFor_outlen (c : Config) : (State.resetFor c).outlen = 0 := rfl
@[simp] theorem State.resetFor_kcnt (c : Config) : (State.resetFor c).kcnt = 0 := rfl
@[simp] theorem State.resetFor_key (c : Config) : (State.resetFor c).key = [] := rfl
@[simp] theorem State.resetFor_inBuf (c : Config) : (State.resetFor c).inBuf = [] := rfl
@[simp] theorem State.resetFor_outBuf (c : Config) : (State.resetFor c).outBuf = [] := rfl
@[simp] theorem State.resetFor_pending (c : Config) : (State.resetFor c).pending = [] := rfl
@[simp] theorem State.resetFor_replies (c : Config) : (State.resetFor c).replies = [] := rfl

end Sys2Proof.Machine
end

