-- ==== Sys2Proof/Laws/Commands.lean ====
section
/-! SUPPORT. Everything a command can do, said once: validate, then complete or raise. Proofs about all seven commands cite
`exec_eq` and the field lemmas of `finish`, and unfold no meaning. -/

namespace Sys2Proof.Machine

/-- The outcome of the checks of a command. -/
def checkOf (i : Instr) (s : State) : Option Cause :=
  match i with
  | .xa k => singleKeyCheck k s
  | .xbE k => singleKeyCheck k s
  | .xbD k => singleKeyCheck k s
  | .xcE k => singleKeyCheck k s
  | .xcD k => singleKeyCheck k s
  | .xmE n => multiKeyCheck n s
  | .xmD n => multiKeyCheck n s

/-- The bytes a command writes once it has passed its checks. -/
def resultOf (i : Instr) (s : State) : List Byte :=
  match i with
  | .xa k => xa (inputSeq s) (keyByte k)
  | .xbE k => xb (inputSeq s) (keyByte k) .e
  | .xbD k => xb (inputSeq s) (keyByte k) .d
  | .xcE k => xc (inputSeq s) (keyByte k) .e
  | .xcD k => xc (inputSeq s) (keyByte k) .d
  | .xmE n => xm s.cfg.tail (inputSeq s) (keySet s n.toNat) .e
  | .xmD n => xm s.cfg.tail (inputSeq s) (keySet s n.toNat) .d

/-- Every command always answers a next state. -/
theorem exec_eq (i : Instr) (s : State) : exec i s = .next (finish (checkOf i s) (resultOf i s) s) := by
  cases i <;> rfl

theorem exec_next_iff {i : Instr} {s t : State} : exec i s = .next t ↔ t = finish (checkOf i s) (resultOf i s) s := by
  rw [exec_eq]
  exact ⟨fun h => by injection h with h; exact h.symm, fun h => by rw [h]⟩

@[simp] theorem finish_some (c : Cause) (o : List Byte) (s : State) : finish (some c) o s = raise c s := rfl
@[simp] theorem finish_none (o : List Byte) (s : State) : finish none o s = complete o s := rfl

section
variable (r : Option Cause) (o : List Byte) (s : State)
@[simp] theorem finish_cfg : (finish r o s).cfg = s.cfg := by cases r <;> rfl
@[simp] theorem finish_inlen : (finish r o s).inlen = s.inlen := by cases r <;> rfl
@[simp] theorem finish_kcnt : (finish r o s).kcnt = s.kcnt := by cases r <;> rfl
@[simp] theorem finish_key : (finish r o s).key = s.key := by cases r <;> rfl
@[simp] theorem finish_inBuf : (finish r o s).inBuf = s.inBuf := by cases r <;> rfl
@[simp] theorem finish_pending : (finish r o s).pending = s.pending := by cases r <;> rfl
@[simp] theorem finish_replies : (finish r o s).replies = s.replies := by cases r <;> rfl
end

/-- The checks read the configuration, INLEN, KCNT and KEY. -/
theorem checkOf_congr (i : Instr) {s u : State} (hc : u.cfg = s.cfg) (hl : u.inlen = s.inlen) (hk : u.kcnt = s.kcnt)
    (hs : u.key = s.key) : checkOf i u = checkOf i s := by
  cases i <;> simp [checkOf, singleKeyCheck, multiKeyCheck, keySlots, hc, hl, hk, hs]

/-- The result reads TAIL_POLICY, INLEN, IN and KEY. -/
theorem resultOf_congr (i : Instr) {s u : State} (hc : u.cfg = s.cfg) (hl : u.inlen = s.inlen) (hb : u.inBuf = s.inBuf)
    (hs : u.key = s.key) : resultOf i u = resultOf i s := by
  cases i <;> simp [resultOf, inputSeq, keySet, keySlots, hc, hl, hb, hs]

@[simp] theorem length_inputSeq (s : State) : (inputSeq s).length = s.inlen.toNat := length_readSeq _ _

theorem getElem?_inputSeq (s : State) (j : Nat) :
    (inputSeq s)[j]? = if j < s.inlen.toNat then some (Cells.read s.inBuf j) else none := getElem?_readSeq _ _ _

@[simp] theorem length_keySet (s : State) (n : Nat) : (keySet s n).length = n := by simp [keySet, keySlots]

/-- A key operand inside the range loads its own number. -/
theorem keyByte_eq (k : Imm16) : keyByte k = BitVec.ofNat 8 k.toNat := by
  apply BitVec.eq_of_toNat_eq
  simp [keyByte]

/-- A command that passed its checks has INLEN ≤ LMAX. -/
theorem inlen_le_of_checkOf_none {i : Instr} {s : State} (h : checkOf i s = none) : s.inlen.toNat ≤ s.cfg.lmax := by
  cases i <;> (simp only [checkOf, singleKeyCheck, multiKeyCheck] at h; split at h <;> simp_all)

end Sys2Proof.Machine
end

