-- ==== Sys2Proof/Laws/Decode.lean ====
section
/-! SUPPORT. A command word as a number, the fields of a word as numbers, and that every instruction is well formed. -/

namespace Sys2Proof

/-- "As a number the word is `IMM16 * 65536 + M * 16 + OP`" (`30_encoding.md` R71). -/
theorem toNat_assemble (k : Imm16) (m : BitVec 1) (o : BitVec 4) :
    (assemble k m o).toNat = k.toNat * 65536 + m.toNat * 16 + o.toNat := by
  have h : assemble k m o = (k ++ 0#11 ++ m ++ o : BitVec (16 + 11 + 1 + 4)) := rfl
  have hm := m.isLt
  have ho := o.isLt
  rw [h, BitVec.toNat_append, BitVec.toNat_append, BitVec.toNat_append, ← Nat.shiftLeft_add_eq_or_of_lt ho,
    ← Nat.shiftLeft_add_eq_or_of_lt hm, ← Nat.shiftLeft_add_eq_or_of_lt (0#11).isLt]
  simp only [Nat.shiftLeft_eq, BitVec.toNat_zero]
  omega

theorem toNat_opField (w : Word) : (opField w).toNat = w.toNat % 16 := by simp [opField]

theorem toNat_modeBit (w : Word) : (modeBit w).toNat = w.toNat / 16 % 2 := by
  simp [modeBit, Nat.shiftRight_eq_div_pow]

theorem toNat_zeroField (w : Word) : (zeroField w).toNat = w.toNat / 32 % 2048 := by
  simp [zeroField, Nat.shiftRight_eq_div_pow]

theorem toNat_immField (w : Word) : (immField w).toNat = w.toNat / 65536 := by
  have := w.isLt
  simp [immField, Nat.shiftRight_eq_div_pow]
  omega

@[simp] theorem opField_assemble (k : Imm16) (m : BitVec 1) (o : BitVec 4) : opField (assemble k m o) = o := by
  have := m.isLt
  have := o.isLt
  apply BitVec.eq_of_toNat_eq
  rw [toNat_opField, toNat_assemble]
  omega

@[simp] theorem modeBit_assemble (k : Imm16) (m : BitVec 1) (o : BitVec 4) : modeBit (assemble k m o) = m := by
  have := m.isLt
  have := o.isLt
  apply BitVec.eq_of_toNat_eq
  rw [toNat_modeBit, toNat_assemble]
  omega

@[simp] theorem zeroField_assemble (k : Imm16) (m : BitVec 1) (o : BitVec 4) : zeroField (assemble k m o) = 0 := by
  have := m.isLt
  have := o.isLt
  apply BitVec.eq_of_toNat_eq
  rw [toNat_zeroField, toNat_assemble]
  simp
  omega

@[simp] theorem immField_assemble (k : Imm16) (m : BitVec 1) (o : BitVec 4) : immField (assemble k m o) = k := by
  have := m.isLt
  have := o.isLt
  apply BitVec.eq_of_toNat_eq
  rw [toNat_immField, toNat_assemble]
  omega

/-- The low half of a word under the mask of the opcode map (`30_encoding.md` R76). -/
theorem toNat_lowHalf (w : Word) : (w &&& 0x0000FFFF#32).toNat = w.toNat % 65536 := by
  rw [BitVec.toNat_and]
  exact Nat.and_two_pow_sub_one_eq_mod w.toNat 16

/-- The type of the operand admits no ill-formed instruction (`30_encoding.md` R80). -/
theorem Instr.wf_all (i : Instr) : i.wf = true := by
  have := i.imm16.isLt
  simp only [Instr.wf, decide_eq_true_eq]
  omega

end Sys2Proof
end

