-- ==== Sys2Proof/Laws/PerInstr.lean ====
section
/-! SUPPORT. Per-instruction facts about the encoding, one lemma per constructor of Instr. -/

namespace Sys2Proof.Laws

/-- The (match, mask) row of a command in `30_encoding.md` R76, as printed there. -/
def rowMatch : Instr → Word
  | .xa _ => 0x00000001
  | .xbE _ => 0x00000002
  | .xbD _ => 0x00000012
  | .xcE _ => 0x00000003
  | .xcD _ => 0x00000013
  | .xmE _ => 0x00000004
  | .xmD _ => 0x00000014

/-- The word of `i` matches its row of the opcode map under the mask 0x0000FFFF, and carries the operand in IMM16
(`30_encoding.md` R71, R76). -/
def EncodingMatchesRow.Statement (i : Instr) : Prop :=
  encode i &&& 0x0000FFFF#32 = rowMatch i ∧ immField (encode i) = i.imm16

/-- The low half of an assembled word is `M * 16 + OP`, whatever IMM16 is (`30_encoding.md` R71). -/
theorem lowHalf_assemble (k : Imm16) (m : BitVec 1) (o : BitVec 4) (row : Word) (h : row.toNat = m.toNat * 16 + o.toNat) :
    assemble k m o &&& 0x0000FFFF#32 = row := by
  have := m.isLt
  have := o.isLt
  apply BitVec.eq_of_toNat_eq
  rw [toNat_lowHalf, toNat_assemble, h]
  omega

theorem EncodingMatchesRow.xa (k : Imm16) : EncodingMatchesRow.Statement (.xa k) :=
  ⟨lowHalf_assemble k 0 1 _ rfl, immField_assemble k 0 1⟩

theorem EncodingMatchesRow.xbE (k : Imm16) : EncodingMatchesRow.Statement (.xbE k) :=
  ⟨lowHalf_assemble k 0 2 _ rfl, immField_assemble k 0 2⟩

theorem EncodingMatchesRow.xbD (k : Imm16) : EncodingMatchesRow.Statement (.xbD k) :=
  ⟨lowHalf_assemble k 1 2 _ rfl, immField_assemble k 1 2⟩

theorem EncodingMatchesRow.xcE (k : Imm16) : EncodingMatchesRow.Statement (.xcE k) :=
  ⟨lowHalf_assemble k 0 3 _ rfl, immField_assemble k 0 3⟩

theorem EncodingMatchesRow.xcD (k : Imm16) : EncodingMatchesRow.Statement (.xcD k) :=
  ⟨lowHalf_assemble k 1 3 _ rfl, immField_assemble k 1 3⟩

theorem EncodingMatchesRow.xmE (k : Imm16) : EncodingMatchesRow.Statement (.xmE k) :=
  ⟨lowHalf_assemble k 0 4 _ rfl, immField_assemble k 0 4⟩

theorem EncodingMatchesRow.xmD (k : Imm16) : EncodingMatchesRow.Statement (.xmD k) :=
  ⟨lowHalf_assemble k 1 4 _ rfl, immField_assemble k 1 4⟩

end Sys2Proof.Laws
end

