-- ==== Sys2Proof/Laws/Step.lean ====
section
/-! SUPPORT. Everything a step can do, said once: `step_cases`. Whole-machine statements cite it and unfold neither `serve` nor
`exec`. -/

namespace Sys2Proof.Machine

theorem step_nil {s : State} (h : s.pending = []) : step s = .next s := by simp [step, serveNext, h]

theorem step_cons {s : State} {a : Access} {rest : List Access} (h : s.pending = a :: rest) :
    step s = serve a (s.setPending rest) := by simp [step, serveNext, h]

theorem issue_ok {w : Word} {i : Instr} (h : decode w = .ok i) (s : State) : issue w s = exec i s := by simp [issue, h]

theorem issue_error {w : Word} {r : IllegalWord} (h : decode w = .error r) (s : State) :
    issue w s = .next (raise .illegalCmd s) := by simp [issue, h]

/-- A write to CMD ends with one `finish`: success with some result, or one cause. -/
theorem issue_eq (w : Word) (s : State) :
    (∃ r, decode w = .error r ∧ issue w s = .next (raise .illegalCmd s)) ∨
    (∃ i, decode w = .ok i ∧ issue w s = .next (finish (checkOf i s) (resultOf i s) s)) := by
  rcases h : decode w with r | i
  · exact .inl ⟨r, rfl, issue_error h s⟩
  · exact .inr ⟨i, rfl, by rw [issue_ok h, exec_eq]⟩

/-- What serving one access can do when it answers a next state: push one reply, run a command, ignore a write, store one element,
or reset. -/
theorem serve_cases {a : Access} {s t : State} (h : serve a s = .next t) :
    (∃ r, t = s.pushReply r ∧ ∃ n, a = .rdCsr n ∨ a = .rdKey n ∨ a = .rdIn n ∨ a = .rdOut n) ∨
    (∃ w, a = .wrCsr 0 w ∧ issue w s = .next t) ∨
    (t = s ∧ ((∃ v, a = .wrCsr 1 v ∨ a = .wrCsr 3 v) ∨ ∃ j v, a = .wrOut j v ∧ j < s.cfg.lmax)) ∨
    (∃ v, a = .wrCsr 2 v ∧ t = s.setInlen v) ∨
    (∃ v, a = .wrCsr 4 v ∧ t = s.setKcnt v) ∨
    (∃ i v, a = .wrKey i v ∧ i < s.cfg.nmax ∧ t = s.setKey (Cells.write s.key i v)) ∨
    (∃ j v, a = .wrIn j v ∧ j < s.cfg.lmax ∧ t = s.setInBuf (Cells.write s.inBuf j v)) ∨
    (a = .reset ∧ t = resetEngine s) := by
  have hans : ∀ why r, answer s why r = .next t → ∃ v, t = s.pushReply v := by
    intro why r hr
    cases r with
    | none => simp [answer] at hr
    | some v => exact ⟨v, by simpa [answer, eq_comm] using hr⟩
  have hsto : ∀ why u, store why u = .next t → u = some t := by
    intro why u hu
    cases u with
    | none => simp [store] at hu
    | some v => simpa [store] using hu
  cases a with
  | rdCsr n => exact .inl ((hans _ _ h).imp fun v hv => ⟨hv, n, by simp⟩)
  | rdKey n => exact .inl ((hans _ _ h).imp fun v hv => ⟨hv, n, by simp⟩)
  | rdIn n => exact .inl ((hans _ _ h).imp fun v hv => ⟨hv, n, by simp⟩)
  | rdOut n => exact .inl ((hans _ _ h).imp fun v hv => ⟨hv, n, by simp⟩)
  | wrCsr n v =>
    simp only [serve] at h
    split at h
    · rename_i hn
      subst hn
      exact .inr (.inl ⟨v, rfl, h⟩)
    · have := hsto _ _ h
      unfold writeCsr at this
      split at this <;> simp_all [eq_comm]
  | wrKey i v =>
    have := hsto _ _ h
    simp only [writeKey] at this
    split at this <;> simp_all [eq_comm]
  | wrIn j v =>
    have := hsto _ _ h
    simp only [writeIn] at this
    split at this <;> simp_all [eq_comm]
  | wrOut j v =>
    have := hsto _ _ h
    simp only [writeOut] at this
    split at this <;> simp_all [eq_comm]
  | otherWidth sp i b => simp [serve] at h
  | otherSpace id i => simp [serve] at h
  | reset => exact .inr (.inr (.inr (.inr (.inr (.inr (.inr ⟨rfl, by simpa [serve, eq_comm] using h⟩))))))

/-- What one step can do when it answers a next state: nothing, or serve the oldest access. -/
theorem step_cases {s t : State} (h : step s = .next t) :
    (s.pending = [] ∧ t = s) ∨ ∃ a rest, s.pending = a :: rest ∧ serve a (s.setPending rest) = .next t := by
  rcases hp : s.pending with _ | ⟨a, rest⟩
  · rw [step_nil hp] at h
    exact .inl ⟨rfl, by injection h with h; exact h.symm⟩
  · exact .inr ⟨a, rest, rfl, by rw [← step_cons hp]; exact h⟩

@[simp] theorem run_zero (s : State) : run 0 s = .next s := rfl

theorem hostRun_succ (M : Host.Core) (n : Nat) (s : M.State) :
    M.run (n + 1) s = match M.step s with
      | .next t => M.run n t
      | .fault r => .fault r
      | .refused r => .refused r := rfl

theorem run_succ (n : Nat) (s : State) :
    run (n + 1) s = match step s with
      | .next t => run n t
      | .fault r => .fault r
      | .refused r => .refused r := by
  refine (hostRun_succ Sys2Proof.core n s).trans ?_
  rcases h : step s with t | r | r
  · have h' : Sys2Proof.core.step s = .next t := h
    rw [h']
    rfl
  · exact nomatch r
  · have h' : Sys2Proof.core.step s = .refused r := h
    rw [h']
    rfl

/-- A run serves the accesses in the order they were issued. -/
theorem run_cons {s : State} {a : Access} {rest : List Access} (h : s.pending = a :: rest) (n : Nat) :
    run (n + 1) s = match serve a (s.setPending rest) with
      | .next t => run n t
      | .fault r => .fault r
      | .refused r => .refused r := by rw [run_succ, step_cons h]

/-- The parts of the invariant. -/
theorem State.inv_iff (s : State) : s.Inv ↔ s.cfg.wf = true ∧ Cells.wf s.cfg.nmax s.key = true ∧ Cells.wf s.cfg.lmax s.inBuf = true ∧
    Cells.wf s.cfg.lmax s.outBuf = true ∧ s.outlen.toNat ≤ s.cfg.lmax ∧ statusLegal s.status = true ∧
    (s.status = statusSuccess ∨ s.outlen = 0) := by
  simp [State.Inv, State.inv, and_assoc]

end Sys2Proof.Machine
end

