-- ==== Sys2Proof/Laws/Streams.lean ====
section
/-! SUPPORT. The small lemmas of the stream, of DEAL and of the interleave's rounds: how each grows by one element. -/

namespace Sys2Proof.Machine

/-- Recovery: the square is 0 or 1, and the plaintext byte of the step is the next key. -/
theorem advance_recover {k : Byte} (h : sq8 k = 0 ∨ sq8 k = 1) (x y : Byte) (m : Mode) :
    advance k x y m = match m with | .e => x | .d => y := by
  unfold advance degenerate
  rw [decide_eq_true h]
  rfl

/-- No recovery: the square is the next key. -/
theorem advance_square {k : Byte} (h : ¬ (sq8 k = 0 ∨ sq8 k = 1)) (x y : Byte) (m : Mode) : advance k x y m = sq8 k := by
  unfold advance degenerate
  rw [decide_eq_false h]
  rfl

@[simp] theorem stream_nil (v : Variant) (m : Mode) (k : Byte) : stream v m [] k = [] := rfl

theorem stream_cons (v : Variant) (m : Mode) (x : Byte) (s : List Byte) (k : Byte) :
    stream v m (x :: s) k = outByte v x k m :: stream v m s (nextKey v k x (outByte v x k m) m) := rfl

@[simp] theorem keySequence_nil (v : Variant) (m : Mode) (k : Byte) : keySequence v m [] k = [] := rfl

theorem keySequence_cons (v : Variant) (m : Mode) (x : Byte) (s : List Byte) (k : Byte) :
    keySequence v m (x :: s) k = k :: keySequence v m s (nextKey v k x (outByte v x k m) m) := rfl

@[simp] theorem length_stream (v : Variant) (m : Mode) (s : List Byte) (k : Byte) : (stream v m s k).length = s.length := by
  induction s generalizing k with
  | nil => rfl
  | cons x s ih => simp [stream_cons, ih]

@[simp] theorem length_keySequence (v : Variant) (m : Mode) (s : List Byte) (k : Byte) :
    (keySequence v m s k).length = s.length := by
  induction s generalizing k with
  | nil => rfl
  | cons x s ih => simp [keySequence_cons, ih]

@[simp] theorem deal_nil (n i : Nat) : deal [] n i = [] := rfl

/-- DEAL grows at its end: one more input byte goes to the sub-stream of its position. -/
theorem deal_concat (s : List Byte) (x : Byte) (n i : Nat) :
    deal (s ++ [x]) n i = deal s n i ++ (if s.length % n = i then [x] else []) := by
  unfold deal
  rw [List.zipIdx_append, List.filter_append, List.map_append]
  congr 1
  by_cases h : s.length % n = i <;> simp [h]

@[simp] theorem length_laneOutputs (p ks : List Byte) (m : Mode) : (laneOutputs p ks m).length = ks.length := by
  simp [laneOutputs]

/-- Lane i's output is variant C on its own sub-stream with its own key. -/
theorem getElem?_laneOutputs (p ks : List Byte) (m : Mode) (i : Nat) :
    (laneOutputs p ks m)[i]? = ks[i]?.map (fun k => xc (deal p ks.length i) k m) := by
  simp [laneOutputs, List.getElem?_zipIdx, Option.map_map, Function.comp_def]

end Sys2Proof.Machine
end

