-- ==== Sys2Proof/Tests/Slice0.lean ====
section
/-! SUPPORT. The model's own tests. Expected values stand in the spec's vectors (`95_test_vectors.md`) or follow by hand from the rule
named. Then, for every statement with hypotheses, a witness: a concrete state and operands that meet all of them. -/

namespace Sys2Proof.Tests

open Sys2Proof.Machine Sys2Proof.Claims

/-- An outcome is a next state of which `f` holds. -/
def gives (o : Host.Outcome State Fault Refusal) (f : State → Bool) : Bool :=
  match o with
  | .next t => f t
  | .fault _ => false
  | .refused _ => false

/-- The engine of `State.reset` with another TAIL_POLICY. -/
def engine (tail : TailPolicy) : State := State.resetFor { referenceConfig with tail := tail }

/-- That engine after `LDIN bs` and `LDKEYS ks`, the host about to make the accesses `as`. -/
def ready (tail : TailPolicy) (bs : List Byte) (ks : List Imm16) (as : List Access) : State :=
  ((((engine tail).setInBuf (writeSeq [] 0 bs)).setInlen (BitVec.ofNat 32 bs.length)).setKey
    (ks.zipIdx.foldl (fun m p => Cells.write m p.2 p.1) [])).setKcnt (BitVec.ofNat 32 ks.length) |>.setPending as

/-- The bytes OUT shows: OUT[0..OUTLEN-1]. -/
def shown (s : State) : List Byte := (List.range s.outlen.toNat).map (outByteAt s)

/-- A command with result `o` succeeded. -/
def ok (o : List Byte) (t : State) : Bool := decide (t.status = 1 ∧ shown t = o)

/-- T, "Hello, World" (`95_test_vectors.md`). -/
def text : List Byte := [0x48, 0x65, 0x6c, 0x6c, 0x6f, 0x2c, 0x20, 0x57, 0x6f, 0x72, 0x6c, 0x64]

/-! ## Ill-formed terms are refused -/

theorem test_wf_rejects_configurations :
    Config.wf { lmax := 0, nmax := 8, tail := .drop } = false ∧ Config.wf { lmax := 1, nmax := 0, tail := .drop } = false ∧
    Config.wf { lmax := 1, nmax := 65536, tail := .keep } = false ∧
    Config.wf { lmax := 1, nmax := 65535, tail := .keep } = true := by decide

theorem test_wf_rejects_accesses :
    (Access.rdCsr 5).wf referenceConfig = false ∧ (Access.wrCsr 5 0).wf referenceConfig = false ∧
    (Access.rdKey 8).wf referenceConfig = false ∧ (Access.wrKey 8 0).wf referenceConfig = false ∧
    (Access.rdIn 16).wf referenceConfig = false ∧ (Access.wrIn 16 0).wf referenceConfig = false ∧
    (Access.rdOut 16).wf referenceConfig = false ∧ (Access.wrOut 16 0).wf referenceConfig = false ∧
    (Access.otherWidth .input 0 16).wf referenceConfig = false ∧ (Access.otherSpace 4 0).wf referenceConfig = false ∧
    programWf referenceConfig [.wrIn 0 1, .wrIn 16 1] = false ∧ programWf referenceConfig [.wrIn 15 1, .wrKey 7 1] = true := by
  decide

/-- `95_test_vectors.md` has no vector for it: `20_memory.md` R52, R59. -/
theorem test_step_refuses_what_does_not_exist :
    step (ready .drop [] [] [.rdKey 8]) = .refused (.noSuchElement .key 8) ∧
    step (ready .drop [] [] [.wrCsr 5 0]) = .refused (.noSuchElement .csr 5) ∧
    step (ready .drop [] [] [.otherWidth .key 0 8]) = .refused (.notElementWidth .key 8) ∧
    step (ready .drop [] [] [.otherSpace 4 0]) = .refused (.noSuchSpace 4) := ⟨rfl, rfl, rfl, rfl⟩

/-! ## Decoding, the words written out: IMM16, ZERO, M, OP (`30_encoding.md` R71, R76; `95_test_vectors.md` 3.8) -/

theorem test_decode_xa : decode (0b0000000011111010#16 ++ 0b00000000000#11 ++ 0b0#1 ++ 0b0001#4) = .ok (.xa 250) := rfl
theorem test_decode_xbE : decode (0b0000000011111101#16 ++ 0b00000000000#11 ++ 0b0#1 ++ 0b0010#4) = .ok (.xbE 253) := rfl
theorem test_decode_xbD : decode (0b0000000011111101#16 ++ 0b00000000000#11 ++ 0b1#1 ++ 0b0010#4) = .ok (.xbD 253) := rfl
theorem test_decode_xcE : decode (0b0000000000000111#16 ++ 0b00000000000#11 ++ 0b0#1 ++ 0b0011#4) = .ok (.xcE 7) := rfl
theorem test_decode_xcD : decode (0b0000000000000111#16 ++ 0b00000000000#11 ++ 0b1#1 ++ 0b0011#4) = .ok (.xcD 7) := rfl
theorem test_decode_xmE : decode (0b0000000000001000#16 ++ 0b00000000000#11 ++ 0b0#1 ++ 0b0100#4) = .ok (.xmE 8) := rfl
theorem test_decode_xmD : decode (0b0000000000001000#16 ++ 0b00000000000#11 ++ 0b1#1 ++ 0b0100#4) = .ok (.xmD 8) := rfl
theorem test_decode_hex_words : decode 0x00FA0001 = .ok (.xa 250) ∧ decode 0xFFFF0014 = .ok (.xmD 65535) ∧
    decodeTableWord 32 0x00FD0012 = some (.xbD 253) ∧ decodeTableWord 16 0x0013 = some (.xcD 0) := ⟨rfl, rfl, rfl, rfl⟩
theorem test_decode_illegal : decode 0x00FA0101 = .error .zeroField ∧ decode 0x00FA0010 = .error .opcode ∧
    decode 0x0000000F = .error .opcode ∧ decode 0x00FA0011 = .error .xaMode ∧ decode 0 = .error .opcode ∧
    decode 0xFFFFFFFF = .error .zeroField := ⟨rfl, rfl, rfl, rfl, rfl, rfl⟩

/-! ## One command, one step (`95_test_vectors.md` 3.3 to 3.7) -/

/-- 3.3 V2. -/
theorem test_xa_vector : gives (step ((ready .drop text [] []).withFetchWord 32 0x00FA0001))
    (ok [0xb2, 0x41, 0x7c, 0x6c, 0x6f, 0x2c, 0x20, 0x57, 0x6f, 0x72, 0x6c, 0x64]) = true := by decide

/-- 3.4 V2. -/
theorem test_xbE_vector : gives (step ((ready .drop text [] []).withFetchWord 32 0x00FD0002))
    (ok [0xb5, 0x6c, 0x3d, 0xcd, 0x2e, 0xad, 0x0c, 0xc7, 0x38, 0xe3, 0x4d, 0x25]) = true := by decide

/-- 3.4 V12. -/
theorem test_xbD_vector : gives (step ((ready .drop [0x10, 0x00, 0x01, 0x11, 0xef, 0x7f, 0xc1] [] []).withFetchWord 32 0x00100012))
    (ok [0x00, 0x00, 0x01, 0x10, 0xff, 0x80, 0x41]) = true := by decide

/-- 3.5 V4. -/
theorem test_xcE_vector : gives (step ((ready .drop text [] []).withFetchWord 32 0x00000003))
    (ok [0x84, 0xd2, 0xdc, 0xf0, 0x0f, 0x73, 0x31, 0xea, 0x1e, 0xde, 0xbd, 0xd9]) = true := by decide

/-- 3.5 V5. -/
theorem test_xcD_vector : gives (step ((ready .drop [0x84, 0xd2, 0xdc, 0xf0, 0x0f, 0x73, 0x31, 0xea, 0x1e, 0xde, 0xbd, 0xd9] [] []).withFetchWord
    32 0x00000013)) (ok text) = true := by decide

/-- 3.6 V13, and V18 for the truncation of a tail. -/
theorem test_xmE_vectors : gives (step ((ready .drop text [7, 16, 255] []).withFetchWord 32 0x00030004))
      (ok [0x83, 0x8a, 0x63, 0xad, 0xfa, 0x70, 0x71, 0x72, 0x0f, 0x70, 0x6d, 0xf7]) = true ∧
    gives (step ((ready .drop hello [0, 1, 2] []).withFetchWord 32 0x00030004)) (ok [0x84, 0x9b, 0x9e]) = true := by decide

/-- 3.6 V14, and the inverse of V19 under KEEP (`44_multi_key_engine.md` R152). -/
theorem test_xmD_vectors : gives (step ((ready .drop [0x83, 0x8a, 0x63, 0xad, 0xfa, 0x70, 0x71, 0x72, 0x0f, 0x70, 0x6d, 0xf7]
      [7, 16, 255] []).withFetchWord 32 0x00030014)) (ok text) = true ∧
    gives (step ((ready .keep [0x84, 0x9b, 0x9e, 0xd4, 0xfa] [0, 1, 2] []).withFetchWord 32 0x00030014)) (ok hello) = true := by
  decide

/-- 3.7 E4, E7, E10, E16, E17: which check decides. -/
theorem test_error_codes :
    gives (step ((ready .drop [0x48, 0x65] [] []).withFetchWord 32 0x00FA0021)) (fun t => decide (t.status = 0x13)) = true ∧
    gives (step (((engine .drop).setInlen 17).withFetchWord 32 0x01000001)) (fun t => decide (t.status = 0x23)) = true ∧
    gives (step ((ready .drop [0x48, 0x65] [] []).withFetchWord 32 0xFFFF0013)) (fun t => decide (t.status = 0x43)) = true ∧
    gives (step ((ready .drop [0x48, 0x65] [1, 256] []).withFetchWord 32 0x00030014)) (fun t => decide (t.status = 0x33)) = true ∧
    gives (step (((ready .drop [0x48, 0x65] [1, 2, 999] []).setKcnt 2).withFetchWord 32 0x00020004)) (ok [0x85, 0x98]) = true := by
  decide

/-- 3.7 E19, E20: the first command after reset. -/
theorem test_first_command :
    gives (step (State.reset.withFetchWord 32 0x00010004)) (fun t => decide (t.status = 0x33)) = true ∧
    gives (step (State.reset.withFetchWord 32 0x00000001)) (ok []) = true := by decide

/-- 3.9 S5: a slot stores any 16-bit value. -/
theorem test_key_slot_stores_anything :
    gives (step (ready .drop [] [] [.wrKey 3 0x1234])) (fun t => decide (readKey t 3 = some 0x1234)) = true := by decide

/-- 3.9 S6, S7: the gate of OUT. -/
theorem test_output_gate :
    gives (step ((ready .drop [0x48, 0x65, 0x6c] [] []).withFetchWord 32 0x00FA0001))
      (fun t => decide (readOut t 2 = some 0x7c ∧ readOut t 3 = some 0)) = true ∧
    gives (run 2 ((ready .drop [0x48, 0x65, 0x6c] [] [.wrCsr 0 0x00FA0001, .wrCsr 2 1]))) (fun t =>
      gives (step (t.withFetchWord 32 0x00FA0001)) (fun u => decide (readOut u 1 = some 0 ∧ u.outlen = 1))) = true := by decide

/-! ## Witnesses: the hypotheses of every statement can be met -/

/-- A state a run reaches: `XB.E 253` on "Hello" has succeeded, and `as` is still to come. -/
def afterXbE (as : List Access) : State := singleKey (xb · · .e) 253 (ready .drop hello [1, 2] as)

theorem witness_afterXbE_reached (as : List Access) :
    step (ready .drop hello [1, 2] (.wrCsr 0 0x00FD0002 :: as)) = .next (afterXbE as) := rfl

theorem witness_inv : (ready .drop hello [1, 2] []).Inv ∧ (ready .keep text [7, 16, 255] []).Inv ∧ (afterXbE []).Inv := by decide

theorem witness_KeySchedulerTransition : (sq8 16 = 0 ∨ sq8 16 = 1) ∧ (sq8 255 = 0 ∨ sq8 255 = 1) ∧ sq8 2 ≠ 0 ∧ sq8 2 ≠ 1 := by decide

theorem witness_DegenerateKeysExactly : (1 ≤ 1 ∧ 1 ≤ 255) ∧ (1 ≤ 255 ∧ 255 ≤ 255) ∧ 0 ≤ 127 ∧ 127 ≤ 127 := by decide

theorem witness_StreamRunsTheLoop : hello ≠ [] ∧ hello[0]? = some 0x48 ∧ 0 + 1 < hello.length ∧ hello[4]? = some 0x6f := by decide

theorem witness_StreamPrefixProperty : 5 ≤ hello.length ∧ hello.take (3 + 1) = ([0x48, 0x65, 0x6c, 0x6c] : List Byte).take (3 + 1) ∧
    hello ≠ [0x48, 0x65, 0x6c, 0x6c] := by decide

theorem witness_VariantAXorsTheSquaringKeystream : ((0 : Byte) = 0 ∨ (0 : Byte) = 1) ∧ 3 ≤ 5 ∧ sq8^[3] (250 : Byte) = 0 ∧
    ((1 : Byte) = 0 ∨ (1 : Byte) = 1) ∧ sq8^[1] (255 : Byte) = 1 := by decide

theorem witness_VariantAKeystreamFreezes : (250 : Byte).toNat % 2 = 0 ∧ 3 ≤ 3 ∧ (253 : Byte).toNat % 2 = 1 ∧ 6 ≤ 6 := by decide

theorem witness_RecoveryTakesThePlaintextByte : Variant.c ≠ .a ∧ Variant.b ≠ .a ∧
    (keySequence .c .e hello 16)[0]? = some 16 ∧ (keySequence .b .e hello 16)[0]? = some 16 ∧ hello[0]? = some 0x48 ∧
    0 + 1 < hello.length ∧ (sq8 16 = 0 ∨ sq8 16 = 1) := by decide

theorem witness_LaneRegistersComputeTheStream : 0 < hello.length ∧ 4 < hello.length := by decide

theorem witness_DealSubStreams : 0 < 3 ∧ 2 < 3 ∧ 6 < 8 ∧ hello.length ≤ 6 := by decide

theorem witness_InterleavePositions :
    (∀ o ∈ [hello, [0x41]], 1 ≤ o.length) ∧ (∃ o ∈ [hello, [0x41]], o.length = 1) ∧ 1 < 1 * [hello, [0x41]].length ∧
    ([1, 2] : List Byte) ≠ [] ∧ 3 < xmLength .drop hello.length 2 ∧ 4 < xmLength .keep hello.length 2 ∧
    text.length % ([1, 2] : List Byte).length = 0 ∧ multiKeyCheck 2 (ready .drop hello [1, 2] []) = none := by decide

theorem witness_DroppedTailHasNoEffect : ([1, 2] : List Byte) ≠ [] := by decide

theorem witness_MultiKeyRoundTrip : ([1, 2] : List Byte) ≠ [] ∧ text.length % ([1, 2] : List Byte).length = 0 ∧
    hello.length % ([1, 2] : List Byte).length ≠ 0 := by decide

/-- Output byte 2 of two XM runs that share lane 0 only. -/
theorem witness_OutputByteDependsOnItsLaneOnly :
    ([1, 2] : List Byte).length = ([1, 9] : List Byte).length ∧ 2 < (xm .drop hello [1, 2] .e).length ∧
    2 < (xm .keep [0x48, 0x00, 0x6c, 0x00] [1, 9] .e).length ∧
    ([1, 2] : List Byte)[2 % ([1, 2] : List Byte).length]? = ([1, 9] : List Byte)[2 % ([1, 2] : List Byte).length]? ∧
    (∀ i, i ≤ 2 → i % ([1, 2] : List Byte).length = 2 % ([1, 2] : List Byte).length →
      hello[i]? = ([0x48, 0x00, 0x6c, 0x00] : List Byte)[i]?) := by
  refine ⟨rfl, by decide, by decide, rfl, fun i hi h => ?_⟩
  interval_cases i <;> simp_all [hello]

/-- Lane 1 first, then lane 0, with steps to spare. -/
theorem witness_LaneScheduleIsUnobservable :
    lanesDone (runLanes .e (lanesStart hello [1, 2]) [1, 0, 1, 1, 0, 0, 7]) = true ∧
    (∀ i, i < ([1, 2] : List Byte).length →
      (deal hello ([1, 2] : List Byte).length i).length ≤ [1, 0, 1, 1, 0, 0, 7].count i) ∧
    ([1, 2] : List Byte)[1]? = some 2 ∧ deal [0x48] ([1, 2] : List Byte).length 1 = [] := by decide

theorem witness_HexCodecRoundTrip : hello[4]? = some 0x6f := by decide

/-- "F0" is the byte f0 when uppercase digits are accepted, "9f" always. -/
theorem witness_HostCodecContracts :
    hexToBytes true ['F', '0'] = some [0xf0] ∧ ['F', '0'][2 * 0]? = some 'F' ∧ ['F', '0'][2 * 0 + 1]? = some '0' ∧
    DigitOf true 'F' 15 ∧ DigitOf true '0' 0 ∧ hexToBytes false ['9', 'f'] = some [0x9f] ∧ DigitOf false '9' 9 ∧
    DigitOf false 'f' 15 ∧ hexToBytes false ['F', '0'] = none ∧ 'F' ∉ lowerDigits := by
  unfold DigitOf
  decide

/-- Also for the clause IllegalWordsFail of XaEffect, XbEffect, XcEffect and XmEffect. -/
theorem witness_IllegalWordsExactly : zero 0x00FA0021 ≠ 0 ∧ op 0 = 0 ∧ 5 ≤ op 5 ∧ op 0x11 = 1 ∧ mode 0x11 = 1 ∧
    (ready .drop hello [] [.wrCsr 0 0x00FA0021]).pending = .wrCsr 0 0x00FA0021 :: [] := by decide

theorem witness_DecodeEncodeAgree : decode 0xFFFF0014 = .ok (.xmD 65535) ∧ decode 0x00000001 = .ok (.xa 0) := ⟨rfl, rfl⟩

theorem witness_StepRunsTheDecodedCommand :
    (ready .drop hello [] [.wrCsr 0 0x00FA0001, .rdOut 0]).pending = .wrCsr 0 0x00FA0001 :: [.rdOut 0] ∧
    decode 0x00FA0001 = .ok (.xa 250) ∧
    (ready .drop hello [] [.wrCsr 0 0x00FA0011]).pending = .wrCsr 0 0x00FA0011 :: [] ∧
    decode 0x00FA0011 = .error .xaMode := ⟨rfl, rfl, rfl, rfl⟩

/-- Each clause at a boundary: LMAX = 16, NMAX = 8, keys 255 and 256. -/
theorem witness_ValidationOrderAndEffect :
    Illegal 0x00FA0021 ∧
    (¬ Illegal 0x01000001 ∧ ((engine .drop).setInlen 17).cfg.lmax < ((engine .drop).setInlen 17).inlen.toNat) ∧
    (¬ Illegal 0x00000004 ∧ (ready .drop text [1] []).inlen.toNat ≤ 16 ∧ op 0x00000004 = 4 ∧ imm 0x00000004 = 0) ∧
    (¬ Illegal 0x00090014 ∧ op 0x00090014 = 4 ∧ (ready .drop text [1] []).cfg.nmax < imm 0x00090014) ∧
    (¬ Illegal 0x00020004 ∧ imm 0x00020004 ≠ (ready .drop text [1] []).kcnt.toNat) ∧
    (¬ Illegal 0x00020004 ∧ op 0x00020004 = 4 ∧ 1 ≤ imm 0x00020004 ∧ imm 0x00020004 ≤ 8 ∧
      imm 0x00020004 = (ready .drop text [255, 256] []).kcnt.toNat ∧
      (∃ i, i < imm 0x00020004 ∧ 255 < (Cells.read (ready .drop text [255, 256] []).key i).toNat)) ∧
    (imm 0x00020004 = (ready .drop text [255, 0] []).kcnt.toNat ∧
      (∀ i, i < imm 0x00020004 → (Cells.read (ready .drop text [255, 0] []).key i).toNat ≤ 255)) ∧
    (¬ Illegal 0x01000001 ∧ (ready .drop text [] []).inlen.toNat ≤ (ready .drop text [] []).cfg.lmax ∧ op 0x01000001 ≠ 4 ∧
      255 < imm 0x01000001) ∧
    (¬ Illegal 0x00FF0013 ∧ op 0x00FF0013 ≠ 4 ∧ imm 0x00FF0013 ≤ 255) := by
  unfold Illegal
  refine ⟨?_, ?_, ?_, ?_, ?_, ?_, ?_, ?_, ?_⟩ <;> decide

theorem witness_AccessesTakeEffectInProgramOrder :
    (ready .drop [] [] [.wrIn 0 1, .rdIn 0]).pending = .wrIn 0 1 :: [.rdIn 0] ∧
    run [Access.wrCsr 2 1, .wrCsr 4 1].length (State.reset.setPending [.wrCsr 2 1, .wrCsr 4 1])
      = .next (((State.reset.setPending []).setInlen 1).setKcnt 1) ∧
    serve (.wrIn 0 1) (State.reset.setPending [.rdIn 0]) = .next ((State.reset.setPending [.rdIn 0]).setInBuf [(0, 1)]) ∧
    State.reset.pending = [] := ⟨rfl, rfl, rfl, rfl⟩

/-- Each clause on both sides of its boundary. -/
theorem witness_AccessesServedExactlyInTheMap :
    (4 ≤ 4 ∧ Access.rdCsr 4 ∈ [Access.rdCsr 4, .wrCsr 4 0] ∧ (ready .drop [] [] [.rdCsr 4]).pending = .rdCsr 4 :: []) ∧
    (4 < 5 ∧ Access.wrCsr 5 0 ∈ [Access.rdCsr 5, .wrCsr 5 0] ∧ (ready .drop [] [] [.wrCsr 5 0]).pending = .wrCsr 5 0 :: []) ∧
    (7 < State.reset.cfg.nmax ∧ (ready .drop [] [] [.wrKey 7 0]).pending = .wrKey 7 0 :: []) ∧
    (State.reset.cfg.nmax ≤ 8 ∧ Access.rdKey 8 ∈ [Access.rdKey 8, .wrKey 8 0] ∧
      (ready .drop [] [] [.rdKey 8]).pending = .rdKey 8 :: []) ∧
    (15 < State.reset.cfg.lmax ∧ (ready .drop [] [] [.rdIn 15]).pending = .rdIn 15 :: []) ∧
    (State.reset.cfg.lmax ≤ 16 ∧ Access.rdOut 16 ∈ [Access.rdIn 16, .wrIn 16 0, .rdOut 16, .wrOut 16 0] ∧
      (ready .drop [] [] [.rdOut 16]).pending = .rdOut 16 :: []) ∧
    (ready .drop [] [] [.otherSpace 4 0]).pending = .otherSpace 4 0 :: [] ∧
    (ready .drop [] [] [.otherWidth .csr 1 8]).pending = .otherWidth .csr 1 8 :: [] ∧
    (ready .drop [] [] [.reset]).pending = .reset :: [] := by decide

theorem witness_ResetValues : 4 ≤ 4 ∧ 7 < referenceConfig.nmax ∧ 15 < referenceConfig.lmax := by decide

theorem witness_ResetReturnsToResetValues : (afterXbE [.reset, .rdCsr 1]).pending = .reset :: [.rdCsr 1] := rfl

theorem witness_FirstCommandAfterReset : (255 : Imm16).toNat ≤ 255 := by decide

theorem witness_InvariantHoldsAtReset : Config.wf { lmax := 1, nmax := 1, tail := .keep } = true := by decide

theorem witness_StepKeepsInvariant : (ready .drop hello [1, 2] [.wrCsr 0 0x00FD0002]).Inv ∧
    step (ready .drop hello [1, 2] [.wrCsr 0 0x00FD0002]) = .next (afterXbE []) := ⟨by decide, rfl⟩

/-- The three clauses of SingleKeyCommand, each at its boundary, for XaEffect, XbEffect and XcEffect. -/
theorem witness_SingleKeyCommand :
    (((engine .drop).setInlen 17).Inv ∧ ((engine .drop).setInlen 17).cfg.lmax < ((engine .drop).setInlen 17).inlen.toNat) ∧
    ((ready .drop hello [] []).Inv ∧ (ready .drop hello [] []).inlen.toNat ≤ (ready .drop hello [] []).cfg.lmax ∧
      255 < (256 : Imm16).toNat) ∧
    ((engine .drop).setInlen 16).Inv ∧ ((engine .drop).setInlen 16).inlen.toNat ≤ ((engine .drop).setInlen 16).cfg.lmax ∧
    (255 : Imm16).toNat ≤ 255 := by decide

theorem witness_XaEffect : (ready .drop hello [] []).Inv ∧
    (ready .drop hello [] []).inlen.toNat ≤ (ready .drop hello [] []).cfg.lmax ∧ (250 : Imm16).toNat ≤ 255 ∧
    exec (.xa 250) (ready .drop hello [] []) = .next (singleKey xa 250 (ready .drop hello [] [])) ∧
    4 < (ready .drop hello [] []).inlen.toNat ∧ Illegal 0x00FA0011 ∧
    (ready .drop hello [] [.wrCsr 0 0x00FA0011]).pending = .wrCsr 0 0x00FA0011 :: [] ∧
    (250 : Byte).toNat % 2 = 0 ∧ (253 : Byte).toNat % 2 = 1 :=
  ⟨by decide, by decide, by decide, rfl, by decide, by unfold Illegal; decide, rfl, by decide, by decide⟩

theorem witness_XbEffect : (127 : Byte) ∈ ([0, 255, 127, 129, 1] : List Byte) := by decide

/-- The clauses of MultiKeyCommand: N = 0, N > NMAX, N ≠ KCNT, a slot of 256, and all in range. -/
theorem witness_XmEffect :
    (((engine .keep).setInlen 17).Inv ∧ ((engine .keep).setInlen 17).cfg.lmax < ((engine .keep).setInlen 17).inlen.toNat) ∧
    (ready .keep hello [1, 256] []).Inv ∧
    (ready .keep hello [1, 256] []).inlen.toNat ≤ (ready .keep hello [1, 256] []).cfg.lmax ∧
    (0 : Imm16).toNat = 0 ∧ (ready .keep hello [1, 256] []).cfg.nmax < (9 : Imm16).toNat ∧
    (3 : Imm16).toNat ≠ (ready .keep hello [1, 256] []).kcnt.toNat ∧
    (1 ≤ (2 : Imm16).toNat ∧ (2 : Imm16).toNat ≤ (ready .keep hello [1, 256] []).cfg.nmax ∧
      (2 : Imm16).toNat = (ready .keep hello [1, 256] []).kcnt.toNat) ∧
    (∃ k, k < (2 : Imm16).toNat ∧ 255 < (Cells.read (ready .keep hello [1, 256] []).key k).toNat) ∧
    (ready .keep hello [1, 255] []).Inv ∧ (2 : Imm16).toNat = (ready .keep hello [1, 255] []).kcnt.toNat ∧
    (∀ k, k < (2 : Imm16).toNat → (Cells.read (ready .keep hello [1, 255] []).key k).toNat ≤ 255) ∧
    ([1, 2] : List Byte) ≠ [] ∧ ([0x41] : List Byte).length < ([1, 2] : List Byte).length := by decide

theorem witness_ValidCommandsComplete :
    (ready .drop text [255, 0] []).inlen.toNat ≤ (ready .drop text [255, 0] []).cfg.lmax ∧ (255 : Imm16).toNat ≤ 255 ∧
    Instr.xa 255 ∈ [Instr.xa 255, .xbE 255, .xbD 255, .xcE 255, .xcD 255] ∧
    1 ≤ (2 : Imm16).toNat ∧ (2 : Imm16).toNat ≤ (ready .drop text [255, 0] []).cfg.nmax ∧
    (2 : Imm16).toNat = (ready .drop text [255, 0] []).kcnt.toNat ∧
    (∀ i, i < (2 : Imm16).toNat → (Cells.read (ready .drop text [255, 0] []).key i).toNat ≤ 255) ∧
    Instr.xmD 2 ∈ [Instr.xmE 2, .xmD 2] := by decide

theorem witness_CommandFrame : (afterXbE []).Inv ∧
    exec (.xa 250) (afterXbE []) = .next (singleKey xa 250 (afterXbE [])) ∧ (singleKey xa 250 (afterXbE [])).outlen.toNat ≤ 5 :=
  ⟨by decide, rfl, by decide⟩

/-- One command on two states that differ in STATUS, OUT, the key slots and IN beyond INLEN; and XM on two that differ in slot 2. -/
theorem witness_CommandReadsOnlyItsOperands :
    (afterXbE []).Inv ∧ (ready .drop hello [9] []).Inv ∧ (afterXbE []).cfg = (ready .drop hello [9] []).cfg ∧
    (afterXbE []).inlen = (ready .drop hello [9] []).inlen ∧
    (∀ j, j < (afterXbE []).inlen.toNat → Cells.read (afterXbE []).inBuf j = Cells.read (ready .drop hello [9] []).inBuf j) ∧
    (∀ n, Instr.xa 250 = .xmE n ∨ Instr.xa 250 = .xmD n → (afterXbE []).kcnt = (ready .drop hello [9] []).kcnt ∧
      ∀ k, k < n.toNat → Cells.read (afterXbE []).key k = Cells.read (ready .drop hello [9] []).key k) ∧
    exec (.xa 250) (afterXbE []) = .next (singleKey xa 250 (afterXbE [])) ∧
    exec (.xa 250) (ready .drop hello [9] []) = .next (singleKey xa 250 (ready .drop hello [9] [])) :=
  ⟨by decide, by decide, rfl, rfl, by decide, fun n h => by simp at h, rfl, rfl⟩

theorem witness_CommandReadsOnlyItsOperands_xm :
    (∀ n, Instr.xmE 2 = .xmE n ∨ Instr.xmE 2 = .xmD n →
      (ready .drop hello [1, 2] []).kcnt = ((ready .drop hello [1, 2, 3] []).setKcnt 2).kcnt ∧
      ∀ k, k < n.toNat → Cells.read (ready .drop hello [1, 2] []).key k
        = Cells.read ((ready .drop hello [1, 2, 3] []).setKcnt 2).key k) ∧
    exec (.xmE 2) (ready .drop hello [1, 2] []) = .next (multiKey .e 2 (ready .drop hello [1, 2] [])) ∧
    (ready .drop hello [1, 2] []).key ≠ (ready .drop hello [1, 2, 3] []).key := by
  refine ⟨fun n h => ?_, rfl, by decide⟩
  simp only [Instr.xmE.injEq, reduceCtorEq, or_false] at h
  subst h
  decide

theorem witness_MachineSingleKeyRoundTrip :
    (ready .drop hello [1, 2] []).Inv ∧ (ready .drop (shown (afterXbE [])) [] []).Inv ∧
    (ready .drop hello [1, 2] []).inlen.toNat ≤ (ready .drop hello [1, 2] []).cfg.lmax ∧ (253 : Imm16).toNat ≤ 255 ∧
    (Instr.xbE 253, Instr.xbD 253) ∈ [(Instr.xa 253, Instr.xa 253), (.xbE 253, .xbD 253), (.xcE 253, .xcD 253)] ∧
    exec (.xbE 253) (ready .drop hello [1, 2] []) = .next (afterXbE []) ∧
    (ready .drop (shown (afterXbE [])) [] []).cfg = (ready .drop hello [1, 2] []).cfg ∧
    (ready .drop (shown (afterXbE [])) [] []).inlen = (afterXbE []).outlen ∧
    (∀ j, j < (afterXbE []).outlen.toNat →
      Cells.read (ready .drop (shown (afterXbE [])) [] []).inBuf j = outByteAt (afterXbE []) j) :=
  ⟨by decide, by decide, by decide, by decide, by decide, rfl, rfl, by decide, by decide⟩

/-- XM.E 2 on "Hello" under DROP: 4 of the 5 bytes come back. -/
theorem witness_MachineMultiKeyRoundTrip :
    (ready .drop hello [1, 2] []).Inv ∧ (ready .drop [0x85, 0x98, 0xd4, 0x98] [1, 2] []).Inv ∧
    multiKeyCheck 2 (ready .drop hello [1, 2] []) = none ∧
    exec (.xmE 2) (ready .drop hello [1, 2] []) = .next (multiKey .e 2 (ready .drop hello [1, 2] [])) ∧
    (ready .drop [0x85, 0x98, 0xd4, 0x98] [1, 2] []).cfg = (ready .drop hello [1, 2] []).cfg ∧
    (ready .drop [0x85, 0x98, 0xd4, 0x98] [1, 2] []).kcnt = (ready .drop hello [1, 2] []).kcnt ∧
    (∀ i, i < (2 : Imm16).toNat → Cells.read (ready .drop [0x85, 0x98, 0xd4, 0x98] [1, 2] []).key i
      = Cells.read (ready .drop hello [1, 2] []).key i) ∧
    (ready .drop [0x85, 0x98, 0xd4, 0x98] [1, 2] []).inlen = (multiKey .e 2 (ready .drop hello [1, 2] [])).outlen ∧
    (∀ j, j < (multiKey .e 2 (ready .drop hello [1, 2] [])).outlen.toNat →
      Cells.read (ready .drop [0x85, 0x98, 0xd4, 0x98] [1, 2] []).inBuf j
        = outByteAt (multiKey .e 2 (ready .drop hello [1, 2] [])) j) :=
  ⟨by decide, by decide, by decide, rfl, rfl, rfl, by decide, by decide, by decide⟩

/-- XM.E 2 on "Hello" under KEEP: all 5 bytes come back. -/
theorem witness_MachineMultiKeyRoundTrip_keep :
    (ready .keep hello [1, 2] []).Inv ∧ (ready .keep [0x85, 0x98, 0xd4, 0x98, 0xdf] [1, 2] []).Inv ∧
    multiKeyCheck 2 (ready .keep hello [1, 2] []) = none ∧
    exec (.xmE 2) (ready .keep hello [1, 2] []) = .next (multiKey .e 2 (ready .keep hello [1, 2] [])) ∧
    (ready .keep [0x85, 0x98, 0xd4, 0x98, 0xdf] [1, 2] []).cfg = (ready .keep hello [1, 2] []).cfg ∧
    (ready .keep [0x85, 0x98, 0xd4, 0x98, 0xdf] [1, 2] []).kcnt = (ready .keep hello [1, 2] []).kcnt ∧
    (∀ i, i < (2 : Imm16).toNat → Cells.read (ready .keep [0x85, 0x98, 0xd4, 0x98, 0xdf] [1, 2] []).key i
      = Cells.read (ready .keep hello [1, 2] []).key i) ∧
    (ready .keep [0x85, 0x98, 0xd4, 0x98, 0xdf] [1, 2] []).inlen = (multiKey .e 2 (ready .keep hello [1, 2] [])).outlen ∧
    (∀ j, j < (multiKey .e 2 (ready .keep hello [1, 2] [])).outlen.toNat →
      Cells.read (ready .keep [0x85, 0x98, 0xd4, 0x98, 0xdf] [1, 2] []).inBuf j
        = outByteAt (multiKey .e 2 (ready .keep hello [1, 2] [])) j) :=
  ⟨by decide, by decide, by decide, rfl, rfl, rfl, by decide, by decide, by decide⟩

/-- Each clause at the last index it covers. OUTLEN = 5 here. -/
theorem witness_ReadsReturnTheElement :
    (4 ≤ 4 ∧ (afterXbE [.rdCsr 4]).pending = .rdCsr 4 :: []) ∧
    (7 < (afterXbE []).cfg.nmax ∧ (afterXbE [.rdKey 7]).pending = .rdKey 7 :: []) ∧
    (15 < (afterXbE []).cfg.lmax ∧ (afterXbE [.rdIn 15]).pending = .rdIn 15 :: []) ∧
    (4 < (afterXbE []).cfg.lmax ∧ 4 < (afterXbE []).outlen.toNat ∧ (afterXbE [.rdOut 4]).pending = .rdOut 4 :: []) ∧
    (5 < (afterXbE []).cfg.lmax ∧ (afterXbE []).outlen.toNat ≤ 5 ∧ (afterXbE [.rdOut 5]).pending = .rdOut 5 :: []) := by decide

theorem witness_ReadOnlyAndWriteOnlyRegisters :
    15 < (afterXbE []).cfg.lmax ∧ (afterXbE [.wrCsr 1 7]).pending = .wrCsr 1 7 :: [] ∧
    (afterXbE [.wrCsr 3 7]).pending = .wrCsr 3 7 :: [] ∧ (afterXbE [.wrOut 15 7]).pending = .wrOut 15 7 :: [] ∧
    (afterXbE [.rdCsr 0]).pending = .rdCsr 0 :: [] ∧ (afterXbE [.rdOut 0]).pending = .rdOut 0 :: [] ∧
    step (afterXbE [.rdOut 0]) = .next ((afterXbE []).pushReply (.byte 0xb5)) :=
  ⟨by decide, rfl, rfl, rfl, rfl, rfl, rfl⟩

theorem witness_WritesStoreOneElement : (afterXbE [.wrCsr 2 0xFFFFFFFF]).Inv ∧
    (afterXbE [.wrCsr 2 0xFFFFFFFF]).pending = .wrCsr 2 0xFFFFFFFF :: [] ∧
    (afterXbE [.wrCsr 4 0xFFFFFFFF]).pending = .wrCsr 4 0xFFFFFFFF :: [] ∧
    7 < (afterXbE []).cfg.nmax ∧ (afterXbE [.wrKey 7 0xFFFF]).pending = .wrKey 7 0xFFFF :: [] ∧
    15 < (afterXbE []).cfg.lmax ∧ (afterXbE [.wrIn 15 0xFF]).pending = .wrIn 15 0xFF :: [] := by decide

theorem witness_WhoChangesWhat :
    (ready .drop hello [] [.wrCsr 2 3]).Inv ∧ (ready .drop hello [] [.wrKey 0 1]).Inv ∧ (ready .drop [] [] [.wrIn 0 1]).Inv ∧
    exec (.xa 250) (afterXbE []) = .next (singleKey xa 250 (afterXbE [])) ∧
    step (ready .drop hello [] [.wrCsr 2 3]) = .next ((ready .drop hello [] []).setInlen 3) ∧
    (ready .drop hello [] [.wrCsr 2 3]).pending.head? ≠ some .reset ∧ (3 : Word) ≠ (ready .drop hello [] []).inlen ∧
    step (ready .drop hello [] [.wrCsr 4 1]) = .next ((ready .drop hello [] []).setKcnt 1) ∧
    (1 : Word) ≠ (ready .drop hello [] []).kcnt ∧
    step (ready .drop hello [] [.wrKey 0 1]) = .next ((ready .drop hello [] []).setKey [(0, 1)]) ∧
    Cells.read [(0, 1)] 0 ≠ Cells.read (ready .drop hello [] []).key 0 ∧
    step (ready .drop [] [] [.wrIn 0 1]) = .next ((ready .drop [] [] []).setInBuf [(0, 1)]) ∧
    Cells.read [(0, 1)] 0 ≠ Cells.read (ready .drop [] [] []).inBuf 0 ∧
    step (ready .drop hello [1, 2] [.wrCsr 0 0x00FD0002]) = .next (afterXbE []) ∧
    (afterXbE []).status ≠ (ready .drop hello [1, 2] []).status ∧ (afterXbE []).outlen ≠ (ready .drop hello [1, 2] []).outlen ∧
    (afterXbE []).outBuf ≠ (ready .drop hello [1, 2] []).outBuf :=
  ⟨by decide, by decide, by decide, rfl, rfl, by decide, by decide, rfl, by decide, rfl, by decide, rfl, by decide, rfl, by decide,
    by decide, by decide⟩

theorem witness_StatusFields : (afterXbE []).Inv ∧ (afterXbE []).status.getLsbD 1 = false ∧
    (ready .drop hello [1, 2] [.wrCsr 0 0x00FD0002]).pending = .wrCsr 0 0x00FD0002 :: [] ∧
    step (ready .drop hello [1, 2] [.wrCsr 0 0x00FD0002]) = .next (afterXbE []) ∧
    (afterXbE []).status ≠ (ready .drop hello [1, 2] [.wrCsr 0 0x00FD0002]).status ∧
    step (afterXbE [.wrCsr 2 3]) = .next ((afterXbE []).setInlen 3) ∧ (afterXbE [.wrCsr 2 3]).status.getLsbD 0 = true ∧
    (afterXbE [.wrCsr 2 3]).pending.head? ≠ some .reset :=
  ⟨by decide, by decide, rfl, rfl, by decide, rfl, by decide, by decide⟩

theorem witness_RepeatedAccesses : serve (.rdIn 15) (afterXbE []) = .next ((afterXbE []).pushReply (.byte 0)) ∧
    (afterXbE []).Inv ∧ serve (.wrCsr 2 3) (afterXbE []) = .next ((afterXbE []).setInlen 3) ∧
    serve (.wrKey 7 9) (afterXbE []) = .next ((afterXbE []).setKey [(0, 1), (1, 2), (7, 9)]) ∧
    serve (.wrCsr 0 0x00FD0002) (ready .drop hello [1, 2] []) = .next (afterXbE []) := ⟨rfl, by decide, rfl, rfl, rfl⟩

/-- After an error OUTLEN is 0; the bytes of the earlier result stay behind the gate and no read tells the two states apart. -/
def staleA : State := raise .keyRange (afterXbE [.rdOut 0])

/-- `staleA` with nothing behind the gate. -/
def staleB : State := staleA.setOutBuf []

theorem witness_StaleOutputIsInvisible : staleA.Inv ∧ staleB.Inv ∧ staleA.SameToHost staleB ∧ staleA ≠ staleB ∧
    run 1 staleA = .next ((staleA.setPending []).pushReply (.byte 0)) ∧
    (staleA.setPending [.rdOut 16]).SameToHost (staleB.setPending [.rdOut 16]) ∧
    run 1 (staleA.setPending [.rdOut 16]) = .refused (.noSuchElement .output 16) :=
  ⟨by decide, by decide, ⟨rfl, rfl, rfl, rfl, rfl, rfl, rfl, rfl, rfl, fun _ => rfl⟩, by decide, rfl,
    ⟨rfl, rfl, rfl, rfl, rfl, rfl, rfl, rfl, rfl, fun _ => rfl⟩, rfl⟩

theorem witness_LoadsLeaveTheOperands : (afterXbE (ldin text ++ [.rdCsr 2])).Inv ∧ text.length ≤ (afterXbE []).cfg.lmax ∧
    (afterXbE (ldin text ++ [.rdCsr 2])).pending = ldin text ++ [.rdCsr 2] ∧
    ([1, 2, 3, 4, 5, 6, 7, 0] : List Imm16).length ≤ (afterXbE []).cfg.nmax ∧
    (afterXbE (ldkeys [1, 2, 3, 4, 5, 6, 7, 0])).pending = ldkeys [1, 2, 3, 4, 5, 6, 7, 0] ++ [] := by decide

/-- What `EXPECT OK` meets after `XA 250` on one byte, 48 giving b2 (`95_test_vectors.md` 3.3), and `EXPECT ERR 4` after `XA 256`. -/
theorem witness_ExpectReadsReturnTheOutcome :
    (ready .drop [0x48] [] (command (.xa 250) ++ expectOkReads 1 ++ [.reset])).pending
      = command (.xa 250) ++ expectOkReads ([0xb2] : List Byte).length ++ [.reset] ∧
    step (ready .drop [0x48] [] (command (.xa 250) ++ expectOkReads 1 ++ [.reset]))
      = .next (singleKey xa 250 (ready .drop [0x48] [] (expectOkReads 1 ++ [.reset]))) ∧
    Succeeded [0xb2] (ready .drop [0x48] [] (expectOkReads 1 ++ [.reset]))
      (singleKey xa 250 (ready .drop [0x48] [] (expectOkReads 1 ++ [.reset]))) ∧
    (ready .drop [0x48] [] (.wrCsr 0 0x01000001 :: (expectErrReads ++ []))).pending = .wrCsr 0 0x01000001 :: (expectErrReads ++ []) ∧
    step (ready .drop [0x48] [] (.wrCsr 0 0x01000001 :: (expectErrReads ++ [])))
      = .next (failed 4 (ready .drop [0x48] [] (expectErrReads ++ []))) := by
  refine ⟨rfl, rfl, ⟨by decide, by decide, by decide, by decide, fun j hj => ?_, rfl, rfl, rfl, rfl, rfl, rfl, rfl⟩, rfl, rfl⟩
  cases j with
  | zero => simp at hj
  | succ j => rfl

end Sys2Proof.Tests
end

/-! ## `00_scope.md`: a command reads its operands only

Two states that agree in the operands of a command pass the same checks and yield the same result bytes (`SameOperands.checkOf_eq`,
`SameOperands.resultOf_eq`); and what a host sees of `finish` is a function of those two alone, since OUT shows no byte of the buffer
as it was before the command (`outByteAt_complete`). -/

namespace Sys2Proof.Machine

/-! ### What OUT shows after a command -/

/-- A file in canonical form is one inside every larger size too. -/
theorem Cells.wfFrom_mono_size {w hi hi' lo : Nat} {m : Cells w} (h : Cells.wfFrom hi lo m = true) (hle : hi ≤ hi') :
    Cells.wfFrom hi' lo m = true := by
  induction m generalizing lo with
  | nil => rfl
  | cons p m ih =>
    obtain ⟨b, v⟩ := p
    rw [Cells.wfFrom_cons] at h ⊢
    obtain ⟨hlo, hhi, hv, hm⟩ := h
    exact ⟨hlo, by omega, hv, ih hm⟩

/-- The bytes of a sequence written from index 0 on stand there, however long the sequence is. -/
theorem read_writeSeq_of_lt {n : Nat} {m : Memory} (h : Cells.wf n m = true) {o : List Byte} {j : Nat} (hj : j < o.length) :
    Cells.read (writeSeq m 0 o) j = o[j] := by
  have hwide : Cells.wf (max n o.length) m = true := Cells.wfFrom_mono_size h (Nat.le_max_left _ _)
  rw [read_writeSeq hwide 0 o (by omega)]
  simp [hj]

/-- `60_exceptions.md` R166: after InvalidInput nothing of OUT shows. -/
@[simp] theorem outByteAt_raise (c : Cause) (s : State) (j : Nat) : outByteAt (raise c s) j = 0 := rfl

/-- `10_state.md` R32: after a success OUT shows bytes of the result only. -/
theorem outByteAt_complete {s : State} (h : s.Inv) (o : List Byte) (j : Nat) :
    outByteAt (complete o s) j = if j < (BitVec.ofNat 32 o.length).toNat then o[j]?.getD 0 else 0 := by
  obtain ⟨-, -, -, hout, -, -, -⟩ := s.inv_iff.1 h
  unfold outByteAt
  rw [complete_outlen, complete_outBuf]
  split
  next hj =>
    have hlt : j < o.length := Nat.lt_of_lt_of_le hj (by rw [BitVec.toNat_ofNat]; exact Nat.mod_le _ _)
    rw [read_writeSeq_of_lt hout hlt, List.getElem?_eq_getElem hlt, Option.getD_some]
  next => rfl

/-- What a host sees of the end of a command depends on the outcome of its checks and on its result, not on the state it ran in. -/
theorem finish_shows_same {s u : State} (hs : s.Inv) (hu : u.Inv) (failed : Option Cause) (o : List Byte) :
    (finish failed o s).status = (finish failed o u).status ∧ (finish failed o s).outlen = (finish failed o u).outlen ∧
    ∀ j, outByteAt (finish failed o s) j = outByteAt (finish failed o u) j := by
  cases failed with
  | some c => exact ⟨rfl, rfl, fun _ => rfl⟩
  | none => exact ⟨rfl, rfl, fun j => (outByteAt_complete hs o j).trans (outByteAt_complete hu o j).symm⟩

/-! ### What the checks and the result of a command read -/

/-- The operands of command `i` (`00_scope.md` R12) are the same in `s` and `u`: INLEN, IN[0..INLEN-1] and, for XM.E and XM.D only,
KCNT and KEY[0..N-1]; and the two engines have one configuration. -/
structure SameOperands (i : Instr) (s u : State) : Prop where
  cfg : s.cfg = u.cfg
  inlen : s.inlen = u.inlen
  input : ∀ j, j < s.inlen.toNat → Cells.read s.inBuf j = Cells.read u.inBuf j
  keys : ∀ n, i = .xmE n ∨ i = .xmD n → s.kcnt = u.kcnt ∧ ∀ k, k < n.toNat → Cells.read s.key k = Cells.read u.key k

theorem inputSeq_eq_of_reads {s u : State} (hlen : s.inlen = u.inlen)
    (hin : ∀ j, j < s.inlen.toNat → Cells.read s.inBuf j = Cells.read u.inBuf j) : inputSeq s = inputSeq u := by
  unfold inputSeq readSeq
  rw [← hlen]
  exact List.map_congr_left fun j hj => hin j (List.mem_range.1 hj)

theorem keySlots_eq_of_reads {s u : State} {n : Nat} (hkey : ∀ k, k < n → Cells.read s.key k = Cells.read u.key k) :
    keySlots s n = keySlots u n :=
  List.map_congr_left fun k hk => hkey k (List.mem_range.1 hk)

/-- The checks of a single-key command read the configuration and INLEN. -/
theorem singleKeyCheck_congr (seed : Imm16) {s u : State} (hcfg : s.cfg = u.cfg) (hlen : s.inlen = u.inlen) :
    singleKeyCheck seed s = singleKeyCheck seed u := by
  simp only [singleKeyCheck, hcfg, hlen]

/-- The checks of a multi-key command read the configuration, INLEN, KCNT and KEY[0..N-1]. -/
theorem multiKeyCheck_congr (n : Imm16) {s u : State} (hcfg : s.cfg = u.cfg) (hlen : s.inlen = u.inlen) (hcnt : s.kcnt = u.kcnt)
    (hslots : keySlots s n.toNat = keySlots u n.toNat) : multiKeyCheck n s = multiKeyCheck n u := by
  simp only [multiKeyCheck, hcfg, hlen, hcnt, hslots]

namespace SameOperands

variable {i : Instr} {n : Imm16} {s u : State}

theorem inputSeq_eq (h : SameOperands i s u) : inputSeq s = inputSeq u := inputSeq_eq_of_reads h.inlen h.input

theorem kcnt_eq (h : SameOperands i s u) (hi : i = .xmE n ∨ i = .xmD n) : s.kcnt = u.kcnt := (h.keys n hi).1

theorem keySlots_eq (h : SameOperands i s u) (hi : i = .xmE n ∨ i = .xmD n) : keySlots s n.toNat = keySlots u n.toNat :=
  keySlots_eq_of_reads (h.keys n hi).2

theorem multiKeyCheck_eq (h : SameOperands i s u) (hi : i = .xmE n ∨ i = .xmD n) : multiKeyCheck n s = multiKeyCheck n u :=
  multiKeyCheck_congr n h.cfg h.inlen (h.kcnt_eq hi) (h.keySlots_eq hi)

theorem xm_eq (h : SameOperands i s u) (hi : i = .xmE n ∨ i = .xmD n) (m : Mode) :
    xm s.cfg.tail (inputSeq s) (keySet s n.toNat) m = xm u.cfg.tail (inputSeq u) (keySet u n.toNat) m := by
  rw [keySet, keySet, h.cfg, h.inputSeq_eq, h.keySlots_eq hi]

/-- The checks of a command read its operands only. -/
theorem checkOf_eq (h : SameOperands i s u) : checkOf i s = checkOf i u := by
  cases i with
  | xa k | xbE k | xbD k | xcE k | xcD k => exact singleKeyCheck_congr k h.cfg h.inlen
  | xmE n => exact h.multiKeyCheck_eq (.inl rfl)
  | xmD n => exact h.multiKeyCheck_eq (.inr rfl)

/-- The result of a command reads its operands only. -/
theorem resultOf_eq (h : SameOperands i s u) : resultOf i s = resultOf i u := by
  cases i with
  | xa k | xbE k | xbD k | xcE k | xcD k => simp only [resultOf, h.inputSeq_eq]
  | xmE n => exact h.xm_eq (.inl rfl) .e
  | xmD n => exact h.xm_eq (.inr rfl) .d

end SameOperands

/-- Settles O44: both runs end with the same `finish`, whose visible part depends on the operands only. -/
theorem commandReadsOnlyItsOperands : Obligations.CommandReadsOnlyItsOperands := by
  unfold Obligations.CommandReadsOnlyItsOperands
  intro i s u t v hs hu hcfg hlen hin hkeys ht hv
  have same : SameOperands i s u := ⟨hcfg, hlen, hin, hkeys⟩
  rw [exec_next_iff.1 ht, exec_next_iff.1 hv, same.checkOf_eq, same.resultOf_eq]
  exact finish_shows_same hs hu _ _

end Sys2Proof.Machine

/-! ## `10_state.md`: reset, the read-only registers, the fields of STATUS

Every word STATUS can hold is a `statusWord`, so its fields are read off once (`statusLegal_cases`, `statusWord_err` and the lemmas
beside it). A write to CMD ends in `raise` or in `complete` (`issue_cases`), and no other access but a reset touches STATUS
(`step_status_cases`). -/

namespace Sys2Proof.Machine

/-! ### The fields of a STATUS word -/

section
variable (done err : Bool) (ecode : BitVec 4)

theorem statusWord_done : (statusWord done err ecode).getLsbD 0 = done := by
  revert done err ecode
  decide

theorem statusWord_err : (statusWord done err ecode).getLsbD 1 = err := by
  revert done err ecode
  decide

theorem statusWord_ecode : (statusWord done err ecode).extractLsb' 4 4 = ecode := by
  revert done err ecode
  decide

theorem statusWord_reserved :
    (statusWord done err ecode).extractLsb' 2 2 = 0 ∧ (statusWord done err ecode).extractLsb' 8 24 = 0 := by
  revert done err ecode
  decide

end

/-- `60_exceptions.md` R162: no cause has code 0. -/
theorem Cause.code_ne_zero (c : Cause) : c.code ≠ 0 := by cases c <;> decide

/-- `10_state.md` R27: what STATUS holds has the fields of a `statusWord`, and an ECODE only beside ERR. -/
theorem statusLegal_cases {w : Word} (h : statusLegal w = true) :
    ∃ done err ecode, w = statusWord done err ecode ∧ (err = false → ecode = 0) := by
  obtain rfl | rfl | rfl | rfl | rfl | rfl := of_decide_eq_true h
  · exact ⟨false, false, 0, rfl, fun _ => rfl⟩
  · exact ⟨true, false, 0, rfl, fun _ => rfl⟩
  all_goals exact ⟨true, true, _, rfl, nofun⟩

/-! ### What a write to CMD and any other step leave in STATUS -/

/-- A write to CMD raises InvalidInput, or its word is a command and completes. -/
theorem issue_cases {w : Word} {s t : State} (h : issue w s = .next t) :
    (∃ c, t = raise c s) ∨ ∃ i, decode w = .ok i ∧ ∃ o, t = complete o s := by
  obtain ⟨r, -, hr⟩ | ⟨i, hi, hr⟩ := issue_eq w s
  · exact .inl ⟨_, Host.Outcome.next.inj (h.symm.trans hr)⟩
  · have ht := Host.Outcome.next.inj (h.symm.trans hr)
    rcases hc : checkOf i s with _ | c
    · exact .inr ⟨i, hi, _, by rw [ht, hc, finish_none]⟩
    · exact .inl ⟨c, by rw [ht, hc, finish_some]⟩

/-- `60_exceptions.md` R166: the fields of STATUS after InvalidInput. -/
theorem raise_status_fields (c : Cause) (s : State) :
    (raise c s).status.getLsbD 0 = true ∧ (raise c s).status.getLsbD 1 = true ∧ (raise c s).status.extractLsb' 4 4 = c.code :=
  ⟨statusWord_done true true c.code, statusWord_err true true c.code, statusWord_ecode true true c.code⟩

/-- `43_single_key_engine.md` R122: the fields of STATUS after a success. -/
theorem complete_status_fields (o : List Byte) (s : State) :
    (complete o s).status.getLsbD 0 = true ∧ (complete o s).status.getLsbD 1 = false ∧
    (complete o s).status.extractLsb' 4 4 = 0 :=
  ⟨statusWord_done true false 0, statusWord_err true false 0, statusWord_ecode true false 0⟩

/-- ERR tells the two ends of a command apart. -/
theorem raise_ne_complete (c : Cause) (o : List Byte) (s : State) : raise c s ≠ complete o s := by
  intro h
  obtain ⟨-, hset, -⟩ := raise_status_fields c s
  obtain ⟨-, hclear, -⟩ := complete_status_fields o s
  rw [h, hclear] at hset
  exact Bool.false_ne_true hset

/-- `10_state.md` R27 for a write to CMD: DONE is set, and ERR with its ECODE tells `raise` from `complete`. -/
theorem issue_status {w : Word} {s t : State} (h : issue w s = .next t) :
    t.status.getLsbD 0 = true ∧ (t.status.getLsbD 1 = true ↔ t.status.extractLsb' 4 4 ≠ 0) ∧
    (t.status.getLsbD 1 = false ↔ ∃ i, decode w = .ok i ∧ ∃ o, t = complete o s) ∧
    (t.status.getLsbD 1 = true ↔ ∃ c, t = raise c s) := by
  obtain ⟨c, rfl⟩ | ⟨i, hi, o, rfl⟩ := issue_cases h
  · obtain ⟨hdone, herr, hcode⟩ := raise_status_fields c s
    rw [hdone, herr, hcode]
    have hnone : ¬ ∃ i, decode w = .ok i ∧ ∃ o, raise c s = complete o s := fun ⟨_, _, o, ho⟩ => raise_ne_complete c o s ho
    exact ⟨rfl, iff_of_true rfl c.code_ne_zero, iff_of_false nofun hnone, iff_of_true rfl ⟨c, rfl⟩⟩
  · obtain ⟨hdone, herr, hcode⟩ := complete_status_fields o s
    rw [hdone, herr, hcode]
    have hnone : ¬ ∃ c, complete o s = raise c s := fun ⟨c, hc⟩ => raise_ne_complete c o s hc.symm
    exact ⟨rfl, iff_of_false nofun (· rfl), iff_of_true rfl ⟨i, hi, o, rfl⟩, iff_of_false nofun hnone⟩

/-- A step keeps STATUS, or is a reset, or is a write to CMD, which sets DONE. -/
theorem step_status_cases {s t : State} (h : step s = .next t) :
    t.status = s.status ∨ s.pending.head? = some .reset ∨
    ∃ w, s.pending.head? = some (.wrCsr 0 w) ∧ t.status.getLsbD 0 = true := by
  obtain ⟨-, rfl⟩ | ⟨a, rest, hp, hs⟩ := step_cases h
  · exact .inl rfl
  rw [hp]
  obtain ⟨_, rfl, -⟩ | ⟨w, rfl, hw⟩ | ⟨rfl, -⟩ | ⟨_, -, rfl⟩ | ⟨_, -, rfl⟩ | ⟨_, _, -, -, rfl⟩ | ⟨_, _, -, -, rfl⟩ | ⟨rfl, -⟩ :=
    serve_cases hs
  · exact .inl rfl
  · obtain ⟨hdone, -⟩ := issue_status hw
    exact .inr (.inr ⟨w, rfl, hdone⟩)
  iterate 5 exact .inl rfl
  exact .inr (.inl rfl)

/-- The end of a command overwrites STATUS, whatever it was. -/
theorem finish_setStatus (failed : Option Cause) (o : List Byte) (s : State) (v : Word) :
    finish failed o (s.setStatus v) = finish failed o s := by cases failed <;> rfl

/-- `10_state.md` R27: no command reads STATUS. -/
theorem exec_setStatus (i : Instr) (s : State) (v : Word) : exec i (s.setStatus v) = exec i s := by
  have hcheck : checkOf i (s.setStatus v) = checkOf i s := checkOf_congr i rfl rfl rfl rfl
  have hresult : resultOf i (s.setStatus v) = resultOf i s := resultOf_congr i rfl rfl rfl rfl
  rw [exec_eq, exec_eq, hcheck, hresult, finish_setStatus]

/-- Settles O51: the fields are those of a `statusWord`, and `step_status_cases` names the accesses that change them. -/
theorem statusFields : Obligations.StatusFields := by
  unfold Obligations.StatusFields
  refine ⟨fun s hs => ?reserved, fun s t w rest hp h => ?command, fun _ => statusWord_done false false 0,
    fun s t h hdone hreset => ?sticky, fun s t h hne => ?writers, exec_setStatus⟩
  case reserved =>
    obtain ⟨-, -, -, -, -, hlegal, -⟩ := s.inv_iff.1 hs
    obtain ⟨done, err, ecode, hw, hcode⟩ := statusLegal_cases hlegal
    obtain ⟨hlow, hhigh⟩ := statusWord_reserved done err ecode
    rw [hw, hlow, hhigh, statusWord_err, statusWord_ecode]
    exact ⟨rfl, rfl, hcode⟩
  case command =>
    rw [step_cons hp] at h
    exact issue_status h
  case sticky =>
    obtain hkept | hr | ⟨_, -, hset⟩ := step_status_cases h
    · rw [hkept, hdone]
    · exact absurd hr hreset
    · exact hset
  case writers =>
    obtain hkept | hr | ⟨w, hw, -⟩ := step_status_cases h
    · exact absurd hkept hne
    · exact .inl hr
    · exact .inr ⟨w, hw⟩

/-! ### Reset -/

theorem readCsr_resetFor (c : Config) {n : Nat} (h : n ≤ 4) : readCsr (State.resetFor c) n = some 0 := by
  match n, h with
  | 0, _ | 1, _ | 2, _ | 3, _ | 4, _ => rfl

@[simp] theorem outByteAt_resetFor (c : Config) (j : Nat) : outByteAt (State.resetFor c) j = 0 := rfl

/-- Settles O33: every register, and every entry an empty file does not list, is 0. -/
theorem resetValues : Obligations.ResetValues := by
  unfold Obligations.ResetValues
  intro c
  refine ⟨fun n hn => readCsr_resetFor c hn, fun i hi => ?_, fun j hj => ⟨?_, ?_⟩,
    statusWord_done false false 0, statusWord_err false false 0, statusWord_ecode false false 0, rfl⟩
  · simp [readKey, hi]
  · simp [readIn, hj]
  · simp [readOut, hj]

/-! ### Accesses that change no register -/

/-- `10_state.md` R36: a write to an OUT[j] that exists is ignored. -/
theorem serve_wrOut {s : State} {j : Nat} (hj : j < s.cfg.lmax) (b : Byte) : serve (.wrOut j b) s = .next s := by
  simp [serve, writeOut, hj, store]

/-- `10_state.md` R36: a read that is served changes the record of replies only. -/
theorem serve_read {s t : State} {a : Access} {n : Nat} (ha : a = .rdCsr n ∨ a = .rdKey n ∨ a = .rdIn n ∨ a = .rdOut n)
    (h : serve a s = .next t) : ∃ r, t = s.pushReply r := by
  obtain ⟨r, hr, -⟩ | hother := serve_cases h
  · exact ⟨r, hr⟩
  · obtain rfl | rfl | rfl | rfl := ha <;> simp at hother

/-- Settles O48: each access is served by a rule that names the state it leaves. -/
theorem readOnlyAndWriteOnlyRegisters : Obligations.ReadOnlyAndWriteOnlyRegisters := by
  unfold Obligations.ReadOnlyAndWriteOnlyRegisters
  refine ⟨fun s rest v b j hj hp => ?_, fun s rest hp => ?_, fun s t a rest n hp ha h => ?_⟩
  · obtain hstatus | houtlen | hout := hp
    · rw [step_cons hstatus]; rfl
    · rw [step_cons houtlen]; rfl
    · rw [step_cons hout]; exact serve_wrOut (s := s.setPending rest) hj b
  · rw [step_cons hp]; rfl
  · rw [step_cons hp] at h
    exact serve_read ha h

end Sys2Proof.Machine

/-! ## `20_memory.md`: repeating an access

A read that is served again finds the elements unchanged, since no read looks at the record of replies (`serve_read_pushReply`). A
write that is served again finds its value already stored: for KEY and IN this is `Cells.write_write`. A command that is issued again
finds the operands it found before, so it ends with the same `finish`, and `finish` done twice is the same as once
(`finish_finish`). -/

namespace Sys2Proof.Machine

/-! ### A read served again -/

theorem answer_next_iff {s t : State} {why : Refusal} {v : Option Reply} :
    answer s why v = .next t ↔ ∃ r, v = some r ∧ t = s.pushReply r := by
  cases v <;> simp [answer, eq_comm]

/-- `20_memory.md` R53: what a read returns does not depend on what earlier reads returned. -/
theorem serve_read_pushReply {s : State} {a : Access} {n : Nat} {r : Reply}
    (ha : a = .rdCsr n ∨ a = .rdKey n ∨ a = .rdIn n ∨ a = .rdOut n) (h : serve a s = .next (s.pushReply r)) (r' : Reply) :
    serve a (s.pushReply r') = .next ((s.pushReply r').pushReply r) := by
  have again {why : Refusal} {v : Option Reply} (hv : answer s why v = .next (s.pushReply r)) :
      answer (s.pushReply r') why v = .next ((s.pushReply r').pushReply r) := by
    obtain ⟨q, rfl, hq⟩ := answer_next_iff.1 hv
    have hrq : r = q := (List.cons.inj (congrArg State.replies hq)).1
    rw [hrq]
    rfl
  obtain rfl | rfl | rfl | rfl := ha <;> exact again h

/-! ### A write served again -/

theorem serve_wrInlen (w : Word) (s : State) : serve (.wrCsr 2 w) s = .next (s.setInlen w) := rfl

theorem serve_wrKcnt (w : Word) (s : State) : serve (.wrCsr 4 w) s = .next (s.setKcnt w) := rfl

theorem serve_wrKey_next_iff {i : Nat} {v : Imm16} {s t : State} :
    serve (.wrKey i v) s = .next t ↔ i < s.cfg.nmax ∧ t = s.setKey (Cells.write s.key i v) := by
  by_cases hi : i < s.cfg.nmax <;> simp [serve, writeKey, hi, store, eq_comm]

theorem serve_wrIn_next_iff {j : Nat} {v : Byte} {s t : State} :
    serve (.wrIn j v) s = .next t ↔ j < s.cfg.lmax ∧ t = s.setInBuf (Cells.write s.inBuf j v) := by
  by_cases hj : j < s.cfg.lmax <;> simp [serve, writeIn, hj, store, eq_comm]

/-- `20_memory.md` R53: a write of an operand, served again, changes nothing more. -/
theorem serve_operand_write_again {s t : State} {a : Access} {n : Nat} {w : Word} {k : Imm16} {b : Byte} (hs : s.Inv)
    (ha : a = .wrCsr 2 w ∨ a = .wrCsr 4 w ∨ a = .wrKey n k ∨ a = .wrIn n b) (h : serve a s = .next t) :
    serve a t = .next t := by
  obtain ⟨-, hkey, hin, -⟩ := s.inv_iff.1 hs
  obtain rfl | rfl | rfl | rfl := ha
  · rw [serve_wrInlen] at h
    cases h
    rfl
  · rw [serve_wrKcnt] at h
    cases h
    rfl
  · obtain ⟨hn, rfl⟩ := serve_wrKey_next_iff.1 h
    refine serve_wrKey_next_iff.2 ⟨hn, ?_⟩
    rw [State.setKey_key, Cells.write_write hkey hn]
    rfl
  · obtain ⟨hn, rfl⟩ := serve_wrIn_next_iff.1 h
    refine serve_wrIn_next_iff.2 ⟨hn, ?_⟩
    rw [State.setInBuf_inBuf, Cells.write_write hin hn]
    rfl

/-! ### A command issued again -/

/-- Completing again with the same result writes the bytes that stand there already. The sequence may be longer than OUT: the file
is canonical inside every larger size too. -/
theorem complete_complete {s : State} (hs : s.Inv) (o : List Byte) : complete o (complete o s) = complete o s := by
  obtain ⟨-, -, -, hout, -⟩ := s.inv_iff.1 hs
  have hwide : Cells.wf (max s.cfg.lmax o.length) s.outBuf = true := Cells.wfFrom_mono_size hout (Nat.le_max_left _ _)
  have hagain : writeSeq (writeSeq s.outBuf 0 o) 0 o = writeSeq s.outBuf 0 o :=
    writeSeq_writeSeq hwide o (Nat.le_max_right _ _)
  calc complete o (complete o s)
      = (((complete o s).setOutBuf (writeSeq (writeSeq s.outBuf 0 o) 0 o)).setOutlen _).setStatus statusSuccess := rfl
    _ = complete o s := by rw [hagain]; rfl

/-- A command that ends twice the same way leaves what it left the first time. -/
theorem finish_finish {s : State} (hs : s.Inv) (failed : Option Cause) (o : List Byte) :
    finish failed o (finish failed o s) = finish failed o s := by
  cases failed with
  | some c => rfl
  | none => exact complete_complete hs o

/-- `00_scope.md` R12: a command leaves its operands as they were, so executed again it does the same. -/
theorem exec_again {i : Instr} {s t : State} (hs : s.Inv) (h : exec i s = .next t) : exec i t = .next t := by
  obtain rfl := exec_next_iff.1 h
  rw [exec_eq, checkOf_congr (s := s) i (by simp) (by simp) (by simp) (by simp),
    resultOf_congr (s := s) i (by simp) (by simp) (by simp) (by simp), finish_finish hs]

/-- `20_memory.md` R53: the same word written to CMD again gives the same result. -/
theorem issue_again {w : Word} {s t : State} (hs : s.Inv) (h : issue w s = .next t) : issue w t = .next t := by
  rcases hw : decode w with r | i
  · rw [issue_error hw] at h ⊢
    cases h
    rfl
  · rw [issue_ok hw] at h ⊢
    exact exec_again hs h

/-- Settles O52: one lemma for each kind of access. -/
theorem repeatedAccesses : Obligations.RepeatedAccesses := by
  unfold Obligations.RepeatedAccesses
  refine ⟨fun s t a n ha h => ?read, fun s t a n w k b hs ha h => serve_operand_write_again hs ha h,
    fun s t w hs h => issue_again hs h⟩
  case read =>
    obtain ⟨r, rfl⟩ := serve_read ha h
    exact ⟨r, rfl, serve_read_pushReply ha h r⟩

end Sys2Proof.Machine

/-! ## `30_encoding.md`: the words of the commands

A word with ZERO = 0 is assembled from its own three fields (`assemble_fields`), so the legal words are the images of `encode`
(`exists_encode_of_not_illegal`), and every other word is rejected (`exists_decode_error_of_illegal`). Decoding therefore inverts
`encode` (`decode_ok_iff`), and each row of the opcode map is read off the word `encode` makes (`eq_encode_iff_row`). -/

namespace Sys2Proof

open Sys2Proof.Claims

/-! ### A word and its fields -/

/-- `30_encoding.md` R71: OP, M and IMM16 make up a word with ZERO = 0. -/
theorem assemble_fields {w : Word} (hz : zero w = 0) : assemble (immField w) (modeBit w) (opField w) = w := by
  unfold zero at hz
  apply BitVec.eq_of_toNat_eq
  rw [toNat_assemble, toNat_immField, toNat_modeBit, toNat_opField]
  omega

/-- `30_encoding.md` R76: a word is determined by its low half, which the masks cover, and IMM16. -/
theorem eq_of_lowHalf_of_immField {v w : Word} (hlow : v &&& 0x0000FFFF#32 = w &&& 0x0000FFFF#32)
    (himm : immField v = immField w) : v = w := by
  have hlow := congrArg BitVec.toNat hlow
  have himm := congrArg BitVec.toNat himm
  rw [toNat_lowHalf, toNat_lowHalf] at hlow
  rw [toNat_immField, toNat_immField] at himm
  apply BitVec.eq_of_toNat_eq
  omega

/-! ### Encoding -/

/-- `30_encoding.md` R76: the word of every command matches the command's row. -/
theorem encoding_matches_row (i : Instr) : Laws.EncodingMatchesRow.Statement i := by
  cases i with
  | xa k => exact Laws.EncodingMatchesRow.xa k
  | xbE k => exact Laws.EncodingMatchesRow.xbE k
  | xbD k => exact Laws.EncodingMatchesRow.xbD k
  | xcE k => exact Laws.EncodingMatchesRow.xcE k
  | xcD k => exact Laws.EncodingMatchesRow.xcD k
  | xmE n => exact Laws.EncodingMatchesRow.xmE n
  | xmD n => exact Laws.EncodingMatchesRow.xmD n

/-- `30_encoding.md` R76: only the word of a command matches the command's row and carries its operand. -/
theorem eq_encode_iff_row (w : Word) (i : Instr) :
    w = encode i ↔ w &&& 0x0000FFFF#32 = Laws.rowMatch i ∧ i.imm16.toNat = imm w := by
  obtain ⟨hrow, himm⟩ := encoding_matches_row i
  constructor
  · rintro rfl
    exact ⟨hrow, by rw [← himm, toNat_immField]; rfl⟩
  · rintro ⟨hlow, hoperand⟩
    refine eq_of_lowHalf_of_immField (hlow.trans hrow.symm) (BitVec.eq_of_toNat_eq ?_)
    rw [himm, hoperand, toNat_immField]
    rfl

/-! ### Decoding -/

@[simp] theorem decode_encode (i : Instr) : decode (encode i) = .ok i := by
  cases i <;> simp [encode, decode]

/-- `30_encoding.md` R72, R73: the modes and opcodes that no clause of R77 rejects are those of a command. -/
theorem exists_encode_eq_assemble (k : Imm16) {m : BitVec 1} {o : BitVec 4} (hlow : o.toNat ≠ 0) (hhigh : o.toNat < 5)
    (hxa : o.toNat = 1 → m.toNat ≠ 1) : ∃ i, encode i = assemble k m o := by
  have ho : o = 1 ∨ o = 2 ∨ o = 3 ∨ o = 4 := by bv_omega
  obtain rfl | rfl := BitVec.eq_zero_or_eq_one m
  · obtain rfl | rfl | rfl | rfl := ho
    · exact ⟨.xa k, rfl⟩
    · exact ⟨.xbE k, rfl⟩
    · exact ⟨.xcE k, rfl⟩
    · exact ⟨.xmE k, rfl⟩
  · obtain rfl | rfl | rfl | rfl := ho
    · exact absurd rfl (hxa rfl)
    · exact ⟨.xbD k, rfl⟩
    · exact ⟨.xcD k, rfl⟩
    · exact ⟨.xmD k, rfl⟩

/-- `30_encoding.md` R77: a word that no clause rejects is the word of a command. -/
theorem exists_encode_of_not_illegal {w : Word} (h : ¬ Illegal w) : ∃ i, encode i = w := by
  simp only [Illegal, not_or, not_and, not_not, not_le] at h
  obtain ⟨hz, hlow, hhigh, hxa⟩ := h
  rw [← assemble_fields hz]
  apply exists_encode_eq_assemble
  · rwa [toNat_opField]
  · rwa [toNat_opField]
  · rwa [toNat_opField, toNat_modeBit]

/-- `30_encoding.md` R77: the decoder rejects a word for each clause. -/
theorem exists_decode_error_of_illegal {w : Word} (h : Illegal w) : ∃ r, decode w = .error r := by
  rw [Illegal, zero, op, mode, ← toNat_zeroField, ← toNat_opField, ← toNat_modeBit] at h
  unfold decode
  by_cases hz : zeroField w = 0
  · rw [if_neg (not_not.2 hz)]
    have h := h.resolve_left (by simp [hz])
    generalize (opField w).toNat = o, (modeBit w).toNat = m at h
    obtain rfl | hhigh | ⟨rfl, rfl⟩ := h
    · exact ⟨_, rfl⟩
    · obtain ⟨o, rfl⟩ := Nat.exists_eq_add_of_le' hhigh
      exact ⟨_, rfl⟩
    · exact ⟨_, rfl⟩
  · exact ⟨_, if_pos hz⟩

/-- `30_encoding.md` R77: the words of the commands are the words no clause rejects. -/
theorem exists_decode_ok_iff (w : Word) : (∃ i, decode w = .ok i) ↔ ¬ Illegal w := by
  constructor
  · rintro ⟨i, hi⟩ hw
    obtain ⟨r, hr⟩ := exists_decode_error_of_illegal hw
    simp [hi] at hr
  · intro hw
    obtain ⟨i, rfl⟩ := exists_encode_of_not_illegal hw
    exact ⟨i, decode_encode i⟩

theorem exists_decode_error_iff (w : Word) : (∃ r, decode w = .error r) ↔ Illegal w := by
  constructor
  · rintro ⟨r, hr⟩
    by_contra hw
    obtain ⟨i, hi⟩ := (exists_decode_ok_iff w).2 hw
    simp [hr] at hi
  · exact exists_decode_error_of_illegal

/-- A word that decodes is no illegal word, so it is the word of some command, and `decode_encode` says of which. -/
theorem decode_ok_iff {w : Word} {i : Instr} : decode w = .ok i ↔ w = encode i := by
  constructor
  · intro h
    obtain ⟨j, rfl⟩ := exists_encode_of_not_illegal ((exists_decode_ok_iff w).1 ⟨i, h⟩)
    rw [decode_encode] at h
    rw [Except.ok.inj h]
  · rintro rfl
    exact decode_encode i

/-- The opcode map as the decoder reads it: `30_encoding.md` R76. -/
theorem decode_ok_iff_row (w : Word) (i : Instr) :
    decode w = .ok i ↔ w &&& 0x0000FFFF#32 = Laws.rowMatch i ∧ i.imm16.toNat = imm w :=
  decode_ok_iff.trans (eq_encode_iff_row w i)

end Sys2Proof

namespace Sys2Proof.Machine

open Sys2Proof.Claims

/-- Settles O24: each clause is `decode_ok_iff_row` at one command. -/
theorem opcodeMap : Obligations.OpcodeMap := by
  unfold Obligations.OpcodeMap
  intro w k
  exact ⟨decode_ok_iff_row w (.xa k), decode_ok_iff_row w (.xbE k), decode_ok_iff_row w (.xbD k), decode_ok_iff_row w (.xcE k),
    decode_ok_iff_row w (.xcD k), decode_ok_iff_row w (.xmE k), decode_ok_iff_row w (.xmD k)⟩

/-! ### The effect of an illegal word -/

/-- `60_exceptions.md` R166: what raising a cause writes to STATUS, as a number. -/
theorem raise_eq_failed (c : Cause) (s : State) : raise c s = failed c.code.toNat s := by cases c <;> rfl

/-- `30_encoding.md` R77: a write of an illegal word to CMD ends with ILLEGAL_CMD. -/
theorem issue_illegal {w : Word} (hw : Illegal w) (s : State) : issue w s = .next (failed 1 s) := by
  obtain ⟨r, hr⟩ := exists_decode_error_of_illegal hw
  rw [issue_error hr, raise_eq_failed]
  rfl

theorem step_wrCmd {s : State} {w : Word} {rest : List Access} (h : s.pending = .wrCsr 0 w :: rest) :
    step s = issue w (s.setPending rest) := step_cons h

theorem illegalWordsFail : IllegalWordsFail := by
  intro w s rest hw hp
  rw [step_wrCmd hp, issue_illegal hw]

/-- Settles O25: the decoder accepts exactly the words of commands, and ILLEGAL_CMD is raised before any operand is read. -/
theorem illegalWordsExactly : Obligations.IllegalWordsExactly := by
  unfold Obligations.IllegalWordsExactly
  exact ⟨exists_decode_error_iff, exists_decode_ok_iff, .inr (.inl rfl), .inl (by decide), illegalWordsFail⟩

end Sys2Proof.Machine

/-! ## `41_key_scheduler.md`: the transition function and the byte that replaces a degenerate key

A decrypting step emits the byte the encrypting step consumed (`outByte_outByte`), and ADVANCE in mode D treats the emitted byte as
it treats the consumed byte in mode E (`advance_swap`). The two runs therefore go through the same keys (`keySequence_stream`), and
what recovery puts in place of a degenerate key is the plaintext byte in both. -/

namespace Sys2Proof.Machine

/-! ### The transition function -/

/-- `41_key_scheduler.md` R100. -/
theorem toNat_sq8 (k : Byte) : (sq8 k).toNat = k.toNat * k.toNat % 256 := BitVec.toNat_ofNat _ _

/-- Settles O1: `toNat_sq8`, and one lemma for each branch of ADVANCE. -/
theorem keySchedulerTransition : Obligations.KeySchedulerTransition := by
  unfold Obligations.KeySchedulerTransition
  refine ⟨toNat_sq8, by decide, fun k x y h => ⟨advance_recover h x y .e, advance_recover h x y .d⟩,
    fun k x y m h0 h1 => advance_square (not_or.2 ⟨h0, h1⟩) x y m, fun x y m => ?_, rfl, rfl⟩
  exact advance_square (k := 253) (by decide) x y m

/-! ### A step and the decrypting step that undoes it -/

/-- `42_bit_permuter.md` R110: SWP moves each bit to its neighbour's place, the place whose number differs in the lowest bit. -/
theorem getLsbD_swp (b : Byte) {i : Nat} (hi : i < 8) : (swp b).getLsbD i = b.getLsbD (i ^^^ 1) := by
  unfold swp
  interval_cases i <;> simp

/-- `42_bit_permuter.md` R111. -/
@[simp] theorem swp_swp (b : Byte) : swp (swp b) = b := by
  apply BitVec.eq_of_getLsbD_eq
  intro i hi
  have hneighbour : i ^^^ 1 < 8 := Nat.xor_lt_two_pow (n := 3) hi (by decide)
  rw [getLsbD_swp _ hi, getLsbD_swp _ hneighbour, Nat.xor_assoc, Nat.xor_self, Nat.xor_zero]

/-- `43_single_key_engine.md` R130: under one key, decryption takes the output byte back to the input byte. -/
@[simp] theorem outByte_outByte (v : Variant) (x k : Byte) : outByte v (outByte v x k .e) k .d = x := by
  cases v <;> simp [outByte]

/-- `41_key_scheduler.md` R104: ADVANCE in mode D is ADVANCE in mode E with the consumed and the emitted byte exchanged. -/
theorem advance_swap (k x y : Byte) : advance k y x .d = advance k x y .e := by
  by_cases h : sq8 k = 0 ∨ sq8 k = 1
  · rw [advance_recover h, advance_recover h]
  · rw [advance_square h, advance_square h]

theorem nextKey_swap (v : Variant) (k x y : Byte) : nextKey v k y x .d = nextKey v k x y .e := by
  cases v with
  | a => rfl
  | b => exact advance_swap k x y
  | c => exact advance_swap k x y

theorem nextKey_eq_advance {v : Variant} (hv : v ≠ .a) (k x y : Byte) (m : Mode) : nextKey v k x y m = advance k x y m := by
  cases v with
  | a => exact absurd rfl hv
  | b => rfl
  | c => rfl

/-! ### The keys of a run -/

/-- `41_key_scheduler.md` R104: a decryption goes through the keys of the encryption it undoes. -/
theorem keySequence_stream (v : Variant) (p : List Byte) (seed : Byte) :
    keySequence v .d (stream v .e p seed) seed = keySequence v .e p seed := by
  induction p generalizing seed with
  | nil => rfl
  | cons x p ih => rw [stream_cons, keySequence_cons, keySequence_cons, outByte_outByte, nextKey_swap, ih]

/-- `41_key_scheduler.md` R105: each key of a run follows from the key and the bytes of the step before. -/
theorem getElem?_keySequence_succ {v : Variant} {m : Mode} {s : List Byte} {seed k x : Byte} {j : Nat}
    (hk : (keySequence v m s seed)[j]? = some k) (hx : s[j]? = some x) (hj : j + 1 < s.length) :
    (keySequence v m s seed)[j + 1]? = some (nextKey v k x (outByte v x k m) m) := by
  induction s generalizing seed j with
  | nil => simp at hx
  | cons a s ih =>
    rw [keySequence_cons] at hk ⊢
    rw [List.getElem?_cons_succ]
    cases j with
    | zero =>
      obtain rfl : seed = k := by simpa using hk
      obtain rfl : a = x := by simpa using hx
      cases s with
      | nil => simp at hj
      | cons b s => rfl
    | succ j => exact ih hk hx (by simpa using hj)

/-- Settles O11: both runs have the same keys, so it is enough that the encryption recovers with the byte it consumed. -/
theorem recoveryTakesThePlaintextByte : Obligations.RecoveryTakesThePlaintextByte := by
  unfold Obligations.RecoveryTakesThePlaintextByte
  intro v p seed hv
  refine ⟨keySequence_stream v p seed, fun j k x hk hx hj hdeg => ?_⟩
  rw [getElem?_keySequence_succ hk hx hj, nextKey_eq_advance hv, advance_recover hdeg]

end Sys2Proof.Machine

/-! ## `42_bit_permuter.md`: SWP

Both statements follow from where SWP puts each bit (`getLsbD_swp`): the number of a bit's neighbour is its own number with the
lowest bit flipped, and flipping it twice changes nothing (`swp_swp`). -/

namespace Sys2Proof.Machine

/-- Settles O3: `getLsbD_swp` at the eight bit numbers; the mask form is the definition of SWP. -/
theorem swpExchangesEachPair : Obligations.SwpExchangesEachPair := by
  unfold Obligations.SwpExchangesEachPair
  refine ⟨fun b => ?_, by decide⟩
  exact ⟨getLsbD_swp b (i := 7) (by decide), getLsbD_swp b (i := 6) (by decide), getLsbD_swp b (i := 5) (by decide),
    getLsbD_swp b (i := 4) (by decide), getLsbD_swp b (i := 3) (by decide), getLsbD_swp b (i := 2) (by decide),
    getLsbD_swp b (i := 1) (by decide), getLsbD_swp b (i := 0) (by decide), rfl⟩

/-- `42_bit_permuter.md` R111, in Mathlib's vocabulary. -/
theorem swp_involutive : Function.Involutive swp := swp_swp

/-- Settles O4: an involution is bijective and is its own inverse. -/
theorem swpIsSelfInverse : Obligations.SwpIsSelfInverse := by
  unfold Obligations.SwpIsSelfInverse
  exact ⟨swp_swp, swp_involutive.bijective, fun a b => swp_involutive.eq_iff.trans eq_comm⟩

end Sys2Proof.Machine

/-! ## `43_single_key_engine.md`: streams, and the command XA

A stream combines its input with its keys byte by byte (`stream_eq_zipWith`). In variant A the keys are those of repeated squaring,
whatever the data (`keySequence_a`), and squaring takes every seed to 0 or 1 (`iterate_sq8_of_even`, `iterate_sq8_of_odd`). The
frame of the single-key commands is proved once for all of them (`singleKeyCommand_of_exec`). -/

namespace Sys2Proof.Machine

open Sys2Proof.Claims

/-! ### The loop of STREAM -/

/-- `43_single_key_engine.md` R120: each output byte comes from one input byte and the key before that step's update. -/
theorem stream_eq_zipWith (v : Variant) (m : Mode) (s : List Byte) (seed : Byte) :
    stream v m s seed = List.zipWith (fun x k => outByte v x k m) s (keySequence v m s seed) := by
  induction s generalizing seed with
  | nil => rfl
  | cons x s ih => rw [stream_cons, keySequence_cons, List.zipWith_cons_cons, ih]

theorem getElem?_stream {v : Variant} {m : Mode} {s : List Byte} {seed k x : Byte} {j : Nat}
    (hk : (keySequence v m s seed)[j]? = some k) (hx : s[j]? = some x) :
    (stream v m s seed)[j]? = some (outByte v x k m) := by
  rw [stream_eq_zipWith, List.getElem?_zipWith, hx, hk]

theorem getElem?_keySequence_zero (v : Variant) (m : Mode) {s : List Byte} (hs : s ≠ []) (seed : Byte) :
    (keySequence v m s seed)[0]? = some seed := by
  obtain ⟨x, s, rfl⟩ := List.exists_cons_of_ne_nil hs
  rfl

/-- Settles O7: a key stands at every input position, and the output byte and the next key follow from it. -/
theorem streamRunsTheLoop : Obligations.StreamRunsTheLoop := by
  unfold Obligations.StreamRunsTheLoop
  intro v m s seed
  refine ⟨length_stream v m s seed, length_keySequence v m s seed, rfl,
    fun hs => getElem?_keySequence_zero v m hs seed, fun j x hx => ?_⟩
  have hj : j < (keySequence v m s seed).length := by
    rw [length_keySequence]
    exact (List.getElem?_eq_some_iff.1 hx).1
  have hk := List.getElem?_eq_getElem hj
  exact ⟨_, hk, getElem?_stream hk hx, fun hnext => getElem?_keySequence_succ hk hx hnext⟩

/-! ### Round trip -/

/-- `43_single_key_engine.md` R130: both runs have the same keys, and under one key decryption takes the output byte back. -/
theorem stream_stream (v : Variant) (p : List Byte) (seed : Byte) : stream v .d (stream v .e p seed) seed = p := by
  induction p generalizing seed with
  | nil => rfl
  | cons x p ih => rw [stream_cons, stream_cons, outByte_outByte, nextKey_swap, ih]

/-- `43_single_key_engine.md` R121: variant A has no mode. -/
theorem stream_a_mode (m m' : Mode) (s : List Byte) (seed : Byte) : stream .a m s seed = stream .a m' s seed := by
  induction s generalizing seed with
  | nil => rfl
  | cons x s ih => exact congrArg _ (ih (sq8 seed))

/-- `43_single_key_engine.md` R121: XA with a given seed is its own inverse. -/
theorem xa_xa (s : List Byte) (seed : Byte) : xa (xa s seed) seed = s := by
  unfold xa
  rw [stream_a_mode .e .d (stream .a .e s seed), stream_stream]

/-- Settles O12: `stream_stream` for variants B and C, `xa_xa` for variant A. -/
theorem singleKeyRoundTrip : Obligations.SingleKeyRoundTrip := by
  unfold Obligations.SingleKeyRoundTrip
  exact fun p k => ⟨stream_stream .b p k, stream_stream .c p k, xa_xa p k⟩

/-! ### The keystream of variant A -/

/-- `43_single_key_engine.md` R121: the keys depend on the seed alone and not on the data. -/
theorem keySequence_a (m : Mode) (s : List Byte) (seed : Byte) : keySequence .a m s seed = List.iterate sq8 seed s.length := by
  induction s generalizing seed with
  | nil => rfl
  | cons x s ih => exact congrArg (seed :: ·) (ih (sq8 seed))

theorem getElem?_xa (s : List Byte) (seed : Byte) (j : Nat) : (xa s seed)[j]? = s[j]?.map (· ^^^ sq8^[j] seed) := by
  rcases hx : s[j]? with _ | x
  · rw [List.getElem?_eq_none_iff] at hx
    exact List.getElem?_eq_none_iff.2 ((length_stream ..).trans_le hx)
  · have hj : j < s.length := (List.getElem?_eq_some_iff.1 hx).1
    have hk : (keySequence .a .e s seed)[j]? = some (sq8^[j] seed) := by
      rw [keySequence_a, List.getElem?_iterate sq8 seed _ _ hj]
    exact getElem?_stream hk hx

/-- `41_key_scheduler.md` R107: variant A never recovers, so a key of 0 or 1 stays. -/
theorem iterate_sq8_frozen {seed k : Byte} {i j : Nat} (hk : k = 0 ∨ k = 1) (hij : i ≤ j) (h : sq8^[i] seed = k) :
    sq8^[j] seed = k := by
  have hfix : sq8 k = k := by rcases hk with rfl | rfl <;> rfl
  obtain ⟨d, rfl⟩ := Nat.exists_eq_add_of_le' hij
  rw [Function.iterate_add_apply, h, Function.iterate_fixed hfix]

/-- Settles O9: the first two clauses are the definitions of OUTBYTE(A) and NEXTKEY(A). -/
theorem variantAXorsTheSquaringKeystream : Obligations.VariantAXorsTheSquaringKeystream := by
  unfold Obligations.VariantAXorsTheSquaringKeystream
  exact ⟨fun _ _ _ => rfl, fun _ _ _ _ => rfl, getElem?_xa, fun _ _ _ _ => iterate_sq8_frozen, xa_xa⟩

/-! ### Where the keystream of variant A ends -/

/-- Squaring j times raises the seed to the power 2^j, modulo 256. -/
theorem toNat_iterate_sq8 (seed : Byte) (j : Nat) : (sq8^[j] seed).toNat = seed.toNat ^ 2 ^ j % 256 := by
  induction j with
  | zero => simpa using (Nat.mod_eq_of_lt seed.isLt).symm
  | succ j ih => rw [Function.iterate_succ_apply', toNat_sq8, ih, ← Nat.mul_mod, pow_succ, pow_mul, sq]

/-- Each squaring of an odd number brings it closer to 1 by one more factor of 2. -/
theorem two_pow_dvd_odd_pow_sub_one {n : ℤ} (hn : Odd n) (j : Nat) : 2 ^ (j + 3) ∣ n ^ 2 ^ (j + 1) - 1 := by
  induction j with
  | zero => exact Int.eight_dvd_sq_sub_one_of_odd hn
  | succ j ih =>
    have heven : 2 ∣ n ^ 2 ^ (j + 1) + 1 := hn.pow.add_one.two_dvd
    have hfactor : n ^ 2 ^ (j + 1 + 1) - 1 = (n ^ 2 ^ (j + 1) - 1) * (n ^ 2 ^ (j + 1) + 1) := by ring
    rw [hfactor, pow_succ]
    exact mul_dvd_mul ih heven

/-- `43_single_key_engine.md` R131: an even seed has the factor 2^8 after three squarings. -/
theorem iterate_sq8_of_even {seed : Byte} {j : Nat} (h : seed.toNat % 2 = 0) (hj : 3 ≤ j) : sq8^[j] seed = 0 := by
  refine iterate_sq8_frozen (.inl rfl) hj (BitVec.eq_of_toNat_eq ?_)
  rw [toNat_iterate_sq8]
  exact Nat.mod_eq_zero_of_dvd (pow_dvd_pow_of_dvd (Nat.dvd_of_mod_eq_zero h) 8)

/-- `43_single_key_engine.md` R131: the square of an odd seed is 1 modulo 2^3, so after six squarings it is 1 modulo 2^8. -/
theorem iterate_sq8_of_odd {seed : Byte} {j : Nat} (h : seed.toNat % 2 = 1) (hj : 6 ≤ j) : sq8^[j] seed = 1 := by
  refine iterate_sq8_frozen (.inr rfl) hj (BitVec.eq_of_toNat_eq ?_)
  have hodd : Odd (seed.toNat : ℤ) := by exact_mod_cast Nat.odd_iff.2 h
  have hdvd : (2 : ℤ) ^ 8 ∣ (seed.toNat : ℤ) ^ 2 ^ 6 - 1 := two_pow_dvd_odd_pow_sub_one hodd 5
  rw [toNat_iterate_sq8]
  change _ = 1
  zify
  omega

/-- `43_single_key_engine.md` R122: under key 0 the output equals the input. -/
theorem xa_zero (s : List Byte) : xa s 0 = s := by
  apply List.ext_getElem?
  intro j
  rw [getElem?_xa, Function.iterate_fixed (rfl : sq8 0 = 0)]
  simp

/-- `43_single_key_engine.md` R122: under key 1 the output is the input with bit 0 of every byte flipped. -/
theorem xa_one (s : List Byte) : xa s 1 = s.map (· ^^^ 1) := by
  apply List.ext_getElem?
  intro j
  rw [getElem?_xa, Function.iterate_fixed (rfl : sq8 1 = 1), List.getElem?_map]

theorem getElem?_xa_of_even (s : List Byte) {seed : Byte} {j : Nat} (h : seed.toNat % 2 = 0) (hj : 3 ≤ j) :
    (xa s seed)[j]? = s[j]? := by
  rw [getElem?_xa, iterate_sq8_of_even h hj]
  simp

theorem getElem?_xa_of_odd (s : List Byte) {seed : Byte} {j : Nat} (h : seed.toNat % 2 = 1) (hj : 6 ≤ j) :
    (xa s seed)[j]? = s[j]?.map (· ^^^ 1) := by
  rw [getElem?_xa, iterate_sq8_of_odd h hj]

/-! ### The frame of a command -/

/-- `30_encoding.md` R71, R76: the words of the commands that `encode` assembles with one mode and one opcode. -/
theorem encoded_of_encode {c : Imm16 → Instr} {m : BitVec 1} {o : BitVec 4} (h : ∀ k, encode (c k) = assemble k m o) :
    Encoded c m.toNat o.toNat := by
  intro w k
  rw [decode_ok_iff, h, ← toNat_assemble, BitVec.toNat_inj]

/-- `60_exceptions.md` R167, step 2. -/
theorem singleKeyCheck_of_lenRange {s : State} (seed : Imm16) (hlen : s.cfg.lmax < s.inlen.toNat) :
    singleKeyCheck seed s = some .lenRange := if_pos hlen

/-- `60_exceptions.md` R167, step 4. -/
theorem singleKeyCheck_of_keyRange {seed : Imm16} {s : State} (hlen : s.inlen.toNat ≤ s.cfg.lmax) (hkey : 255 < seed.toNat) :
    singleKeyCheck seed s = some .keyRange := by
  rw [singleKeyCheck, if_neg (not_lt.2 hlen), if_pos (by simpa [outOfKeyRange] using hkey)]

theorem singleKeyCheck_of_valid {seed : Imm16} {s : State} (hlen : s.inlen.toNat ≤ s.cfg.lmax) (hkey : seed.toNat ≤ 255) :
    singleKeyCheck seed s = none := by
  rw [singleKeyCheck, if_neg (not_lt.2 hlen), if_neg (by simpa [outOfKeyRange] using hkey)]

/-- `10_state.md` R32: OUT reads as the result and then as 0, once OUTLEN can hold the length of the result. -/
theorem readOut_complete {s : State} (hs : s.Inv) {o : List Byte} (ho : o.length < 2 ^ 32) {j : Nat} (hj : j < s.cfg.lmax) :
    readOut (complete o s) j = some (o[j]?.getD 0) := by
  rw [readOut, complete_cfg, if_pos hj, outByteAt_complete hs, BitVec.toNat_ofNat, Nat.mod_eq_of_lt ho]
  split
  next => rfl
  next hout => rw [List.getElem?_eq_none (not_lt.1 hout), Option.getD_none]

/-- Completing with a result no longer than the input is the success of `43_single_key_engine.md` R122 and
`44_multi_key_engine.md` R149. -/
theorem succeeded_complete {s : State} (hs : s.Inv) {o : List Byte} (hlen : s.inlen.toNat ≤ s.cfg.lmax)
    (ho : o.length ≤ s.inlen.toNat) : Succeeded o s (complete o s) := by
  obtain ⟨-, -, -, hout, -, -, -⟩ := s.inv_iff.1 hs
  have hword : o.length < 2 ^ 32 := ho.trans_lt s.inlen.isLt
  have hfits : o.length ≤ s.cfg.lmax := ho.trans hlen
  refine ⟨rfl, ?outlen, hfits, fun j hj => readOut_complete hs hword hj, fun j hj => ?beyond, ?operands⟩
  case outlen => rw [complete_outlen, BitVec.toNat_ofNat, Nat.mod_eq_of_lt hword]
  case beyond =>
    rw [complete_outBuf, read_writeSeq hout 0 o (by omega)]
    simp [hj]
  case operands => exact ⟨rfl, rfl, rfl, rfl, rfl, rfl, rfl⟩

/-- The frame of `43_single_key_engine.md` R122, for every command that validates its seed and yields one byte per input byte. -/
theorem singleKeyCommand_of_exec {i : Instr} {seed : Imm16} {f : List Byte → Byte → List Byte}
    (hexec : ∀ s, exec i s = .next (singleKey f seed s)) (hf : ∀ p k, (f p k).length = p.length) : SingleKeyCommand i seed f := by
  intro s hs
  have hresult : (f (inputSeq s) (seedByte seed)).length = s.inlen.toNat := (hf _ _).trans (length_inputSeq s)
  rw [hexec, singleKey, keyByte_eq, ← seedByte]
  refine ⟨fun hlen => ?_, fun hlen hkey => ?_, fun hlen hkey => ?_⟩
  · rw [singleKeyCheck_of_lenRange seed hlen, finish_some, raise_eq_failed]
    rfl
  · rw [singleKeyCheck_of_keyRange hlen hkey, finish_some, raise_eq_failed]
    rfl
  · rw [singleKeyCheck_of_valid hlen hkey, finish_none]
    refine ⟨_, rfl, succeeded_complete hs hlen hresult.le, ?_⟩
    rw [complete_outlen, hresult, BitVec.ofNat_toNat, BitVec.setWidth_eq]

/-! ### The command XA -/

theorem xa_command (seed : Imm16) : SingleKeyCommand (.xa seed) seed xa :=
  singleKeyCommand_of_exec (fun _ => rfl) (length_stream .a .e)

/-- `43_single_key_engine.md` R121, R122: what OUT shows after XA. -/
theorem readOut_xa {seed : Imm16} {s t : State} (hs : s.Inv) (hlen : s.inlen.toNat ≤ s.cfg.lmax) (hkey : seed.toNat ≤ 255)
    (ht : exec (.xa seed) s = .next t) {j : Nat} (hj : j < s.inlen.toNat) :
    readOut t j = some (Cells.read s.inBuf j ^^^ sq8^[j] (seedByte seed)) := by
  obtain ⟨-, -, hvalid⟩ := xa_command seed s hs
  obtain ⟨u, hu, ⟨-, -, -, hread, -⟩, -⟩ := hvalid hlen hkey
  obtain rfl : u = t := by simpa [hu] using ht
  rw [hread j (by omega), getElem?_xa, getElem?_inputSeq, if_pos hj]
  rfl

/-- Settles O38: the encoding, the frame of R122, the byte OUT shows, and the corner cases of the keystream. -/
theorem xaEffect : Obligations.XaEffect := by
  unfold Obligations.XaEffect
  refine ⟨encoded_of_encode (m := 0) (o := 1) fun _ => rfl, xa_command,
    fun seed s t hs hlen hkey ht j hj => readOut_xa hs hlen hkey ht hj, illegalWordsFail,
    fun s => ⟨xa_zero s, xa_one s⟩,
    fun s seed j => ⟨getElem?_xa_of_even s, getElem?_xa_of_odd s⟩, ?vector, ?keys⟩
  case vector => decide
  case keys => decide

end Sys2Proof.Machine

/-! ## `44_multi_key_engine.md`: deal, interleave, round trip

DEAL puts position i + r * N of its input at position r of sub-stream i (`getElem?_deal`). The interleave walk visits the positions
0, 1, 2, ... in order and takes at position j the byte `laneByte os j`, element j / N of lane j mod N, where there is one
(`weave_eq_filterMap_laneByte`). For the lanes of XM there is one exactly below the input length
(`laneByte_laneOutputs_isSome_iff`), so every byte of the result stands at the position of the input byte it came from
(`getElem?_xm`), and dealing it out again gives the lane outputs back (`deal_xm_keep`). Under DROP the engine does what it does
under KEEP on the input cut to whole rounds (`xm_drop_eq_xm_keep_take`). -/

namespace Sys2Proof.Machine

open Sys2Proof.Claims

/-! ### Deal -/

/-- `44_multi_key_engine.md` R142: sub-stream i takes the positions below len(s) that are i modulo N. -/
theorem length_deal (s : List Byte) {n i : Nat} (hi : i < n) :
    (deal s n i).length = s.length / n + (if i < s.length % n then 1 else 0) := by
  have hcount : (deal s n i).length = s.length.count (· ≡ i [MOD n]) := by
    induction s using List.reverseRecOn with
    | nil => rfl
    | append_singleton s x ih =>
      rw [deal_concat, List.length_append, ih, List.length_append, List.length_singleton, Nat.count_succ]
      simp only [Nat.ModEq, Nat.mod_eq_of_lt hi]
      split <;> rfl
  rw [hcount, Nat.count_modEq_card _ (by omega), Nat.mod_eq_of_lt hi]

/-- Position i + r * N belongs to lane i. -/
theorem position_mod {n i : Nat} (hi : i < n) (r : Nat) : (i + r * n) % n = i := by
  rw [Nat.add_mul_mod_self_right, Nat.mod_eq_of_lt hi]

/-- Position i + r * N belongs to round r. -/
theorem position_div {n i : Nat} (hi : i < n) (r : Nat) : (i + r * n) / n = r := by
  rw [Nat.add_mul_div_right _ _ (Nat.zero_lt_of_lt hi), Nat.div_eq_of_lt hi, Nat.zero_add]

theorem getElem?_concat_of_ne {l : List Byte} {j : Nat} (h : j ≠ l.length) (x : Byte) : (l ++ [x])[j]? = l[j]? := by
  rcases lt_or_gt_of_ne h with h | h
  · exact List.getElem?_append_left h
  · rw [List.getElem?_eq_none h.le, List.getElem?_eq_none]
    exact List.length_append.trans_le h

/-- `44_multi_key_engine.md` R142: element r of sub-stream i is s[i + r * N]. -/
theorem getElem?_deal (s : List Byte) {n i : Nat} (hi : i < n) (r : Nat) : (deal s n i)[r]? = s[i + r * n]? := by
  induction s using List.reverseRecOn with
  | nil => simp
  | append_singleton s x ih =>
    have hmine (hmod : s.length % n = i) : (deal s n i).length = s.length / n := by
      rw [length_deal s hi, if_neg (by omega), Nat.add_zero]
    rw [deal_concat]
    by_cases hnew : i + r * n = s.length
    · have hmod : s.length % n = i := hnew ▸ position_mod hi r
      have hend : r = (deal s n i).length := by rw [hmine hmod, ← hnew, position_div hi]
      rw [if_pos hmod, hnew, List.getElem?_concat_length, hend, List.getElem?_concat_length]
    · rw [getElem?_concat_of_ne hnew, ← ih]
      split
      next hmod =>
        refine getElem?_concat_of_ne (fun hend => hnew ?_) x
        rw [hend, hmine hmod, ← hmod, Nat.mod_add_div']
      next => rw [List.append_nil]

/-- Dealing whole rounds cuts every sub-stream at the same number of bytes. -/
theorem deal_take_mul (s : List Byte) {n i : Nat} (hi : i < n) (q : Nat) : deal (s.take (q * n)) n i = (deal s n i).take q := by
  apply List.ext_getElem?
  intro r
  have hround : i + r * n < q * n ↔ r < q := by rw [← Nat.div_lt_iff_lt_mul (Nat.zero_lt_of_lt hi), position_div hi]
  simp only [getElem?_deal _ hi, List.getElem?_take, hround]

/-- Settles O14: the elements are `getElem?_deal`, the lengths follow from `length_deal`. -/
theorem dealSubStreams : Obligations.DealSubStreams := by
  unfold Obligations.DealSubStreams
  refine ⟨fun s n i hi => ?_, by decide⟩
  have hmod : s.length % n < n := Nat.mod_lt _ (by omega)
  have hlen := length_deal s hi
  have hfirst := length_deal s (n := n) (i := 0) (by omega)
  have hlast := length_deal s (n := n) (i := n - 1) (by omega)
  rw [if_neg (by omega)] at hlast
  have hle : (deal s n i).length ≤ (deal s n 0).length := by split_ifs at hlen hfirst <;> omega
  refine ⟨hlen, hle, by omega, hlast, fun hempty => ?_, getElem?_deal s hi⟩
  have hnone := getElem?_deal s hi 0
  rw [List.getElem?_eq_none (l := s) (by omega), List.getElem?_eq_none_iff] at hnone
  exact List.eq_nil_of_length_eq_zero (by omega)

/-! ### The interleave walk -/

/-- `44_multi_key_engine.md` R146: what the walk finds at position j, element j / N of lane j mod N, if that lane has one. -/
def laneByte (os : List (List Byte)) (j : Nat) : Option Byte := os[j % os.length]?.bind (·[j / os.length]?)

theorem filterMap_eq_filterMap_range (os : List (List Byte)) (g : List Byte → Option Byte) :
    os.filterMap g = (List.range os.length).filterMap (fun i => os[i]?.bind g) := by
  induction os with
  | nil => rfl
  | cons o os ih =>
    rw [List.length_cons, List.range_succ_eq_map, List.filterMap_cons, List.filterMap_cons, List.filterMap_map, ih]
    rfl

/-- Round r visits the N positions from r * N on. -/
theorem weaveRound_eq_filterMap_laneByte (os : List (List Byte)) (r : Nat) :
    weaveRound os r = ((List.range os.length).map (r * os.length + ·)).filterMap (laneByte os) := by
  rw [weaveRound, filterMap_eq_filterMap_range, List.filterMap_map]
  refine List.filterMap_congr fun i hi => ?_
  have hi := List.mem_range.1 hi
  rw [Function.comp_apply, laneByte, Nat.add_comm, position_mod hi, position_div hi]

/-- The walk visits the positions in order. -/
theorem weave_eq_filterMap_laneByte (t : TailPolicy) (os : List (List Byte)) :
    weave t os = (List.range (weaveRounds t os * os.length)).filterMap (laneByte os) := by
  unfold weave
  induction weaveRounds t os with
  | zero => simp
  | succ r ih =>
    rw [List.range_succ, List.flatMap_append, ih, List.flatMap_singleton, weaveRound_eq_filterMap_laneByte, Nat.succ_mul,
      List.range_add, List.filterMap_append]

/-- When the visited positions that have a byte are those below l, the result is the l bytes found there. -/
theorem weave_of_laneByte_isSome_iff {t : TailPolicy} {os : List (List Byte)} {l : Nat} (hl : l ≤ weaveRounds t os * os.length)
    (h : ∀ j, j < weaveRounds t os * os.length → ((laneByte os j).isSome ↔ j < l)) :
    (weave t os).length = l ∧ ∀ j, j < l → (weave t os)[j]? = laneByte os j := by
  have hsome (j : Nat) (hj : j < l) : laneByte os j = some ((laneByte os j).getD 0) := by
    obtain ⟨b, hb⟩ := Option.isSome_iff_exists.1 ((h j (by omega)).2 hj)
    rw [hb, Option.getD_some]
  have hweave : weave t os = (List.range l).map fun j => (laneByte os j).getD 0 := by
    obtain ⟨d, hd⟩ := Nat.exists_eq_add_of_le hl
    have htail : ((List.range d).map (l + ·)).filterMap (laneByte os) = [] := by
      refine List.filterMap_eq_nil_iff.2 fun j hj => ?_
      obtain ⟨i, hi, rfl⟩ := List.mem_map.1 hj
      have hi := List.mem_range.1 hi
      exact Option.not_isSome_iff_eq_none.1 (by rw [h _ (by omega)]; omega)
    rw [weave_eq_filterMap_laneByte, hd, List.range_add, List.filterMap_append, htail, List.append_nil,
      List.filterMap_eq_map_iff_forall_eq_some]
    exact fun j hj => hsome j (List.mem_range.1 hj)
  rw [hweave]
  refine ⟨by simp, fun j hj => ?_⟩
  rw [List.getElem?_map, List.getElem?_range hj, Option.map_some, ← hsome j hj]

/-! ### How many rounds the walk makes -/

theorem weaveRounds_drop {os : List (List Byte)} {r : Nat} (hle : ∀ o ∈ os, r ≤ o.length) (hr : ∃ o ∈ os, o.length = r) :
    weaveRounds .drop os = r := by
  have hmin : (os.map List.length).min? = some r := by
    simpa [List.min?_eq_some_iff] using ⟨hr, hle⟩
  rw [weaveRounds, hmin, Option.getD_some]

theorem length_le_weaveRounds_keep {os : List (List Byte)} {o : List Byte} (ho : o ∈ os) : o.length ≤ weaveRounds .keep os :=
  List.le_max?_getD_of_mem (List.mem_map_of_mem ho)

theorem laneByte_isSome_iff {os : List (List Byte)} {j : Nat} :
    (laneByte os j).isSome ↔ ∃ o, os[j % os.length]? = some o ∧ j / os.length < o.length := by
  simp [laneByte, Option.isSome_bind, Option.any_eq_true]

/-- Under KEEP the walk misses no byte of any lane. -/
theorem lt_of_laneByte_isSome {os : List (List Byte)} {j : Nat} (h : (laneByte os j).isSome) :
    j < weaveRounds .keep os * os.length := by
  obtain ⟨o, ho, hj⟩ := laneByte_isSome_iff.1 h
  have hmem := List.mem_of_getElem? ho
  exact (Nat.div_lt_iff_lt_mul (List.length_pos_of_mem hmem)).1 (hj.trans_le (length_le_weaveRounds_keep hmem))

/-- `44_multi_key_engine.md` R146 under DROP, for any lane outputs: the rounds of the shortest, all of them full. -/
theorem weave_drop {os : List (List Byte)} {r : Nat} (hle : ∀ o ∈ os, r ≤ o.length) (hr : ∃ o ∈ os, o.length = r) :
    (weave .drop os).length = r * os.length ∧ ∀ j, j < r * os.length → (weave .drop os)[j]? = laneByte os j := by
  have hrounds := weaveRounds_drop hle hr
  refine weave_of_laneByte_isSome_iff (by rw [hrounds]) fun j hj => ?_
  rw [hrounds] at hj
  have hpos : 0 < os.length := Nat.pos_of_ne_zero fun h0 => by simp [h0] at hj
  have hlane := Nat.mod_lt j hpos
  have hround : j / os.length < r := (Nat.div_lt_iff_lt_mul hpos).2 hj
  refine iff_of_true (laneByte_isSome_iff.2 ⟨_, List.getElem?_eq_getElem hlane, ?_⟩) hj
  exact hround.trans_le (hle _ (List.getElem_mem hlane))

/-! ### The positions of XM -/

@[simp] theorem length_xc (s : List Byte) (k : Byte) (m : Mode) : (xc s k m).length = s.length := length_stream .c m s k

/-- Position j of the input is element j / N of sub-stream j mod N. -/
theorem getElem?_deal_div (s : List Byte) {n : Nat} (hn : 0 < n) (j : Nat) : (deal s n (j % n))[j / n]? = s[j]? := by
  rw [getElem?_deal s (Nat.mod_lt j hn), Nat.mod_add_div']

theorem div_lt_length_deal_iff (s : List Byte) {n : Nat} (hn : 0 < n) (j : Nat) :
    j / n < (deal s n (j % n)).length ↔ j < s.length := by
  rw [← not_iff_not, not_lt, not_lt, ← List.getElem?_eq_none_iff, getElem?_deal_div s hn, List.getElem?_eq_none_iff]

theorem laneByte_laneOutputs (p ks : List Byte) (m : Mode) (j : Nat) :
    laneByte (laneOutputs p ks m) j =
      ks[j % ks.length]?.bind fun k => (xc (deal p ks.length (j % ks.length)) k m)[j / ks.length]? := by
  rw [laneByte, length_laneOutputs, getElem?_laneOutputs, Option.bind_map]
  rfl

section
variable {ks : List Byte} (hks : ks ≠ [])
include hks

/-- The lanes hold a byte for every input position and for no other. -/
theorem laneByte_laneOutputs_isSome_iff (p : List Byte) (m : Mode) (j : Nat) :
    (laneByte (laneOutputs p ks m) j).isSome ↔ j < p.length := by
  have hn : 0 < ks.length := List.length_pos_iff.2 hks
  rw [laneByte_laneOutputs, List.getElem?_eq_getElem (Nat.mod_lt j hn), Option.bind_some, ← div_lt_length_deal_iff p hn]
  simp

/-- `44_multi_key_engine.md` R142: the last lane is a shortest one, of len(P) / N bytes. -/
theorem shortest_laneOutputs (p : List Byte) (m : Mode) :
    (∀ o ∈ laneOutputs p ks m, p.length / ks.length ≤ o.length) ∧
    ∃ o ∈ laneOutputs p ks m, o.length = p.length / ks.length := by
  have hn : 0 < ks.length := List.length_pos_iff.2 hks
  constructor
  · intro o ho
    obtain ⟨i, hi⟩ := List.mem_iff_getElem?.1 ho
    rw [getElem?_laneOutputs] at hi
    obtain ⟨k, hk, rfl⟩ := Option.map_eq_some_iff.1 hi
    rw [length_xc, length_deal p (List.getElem?_eq_some_iff.1 hk).1]
    omega
  · have hlast : ks.length - 1 < ks.length := by omega
    have hmod : p.length % ks.length < ks.length := Nat.mod_lt _ hn
    refine ⟨xc (deal p ks.length (ks.length - 1)) ks[ks.length - 1] m, List.mem_of_getElem? (i := ks.length - 1) ?_, ?_⟩
    · rw [getElem?_laneOutputs, List.getElem?_eq_getElem hlast, Option.map_some]
    · rw [length_xc, length_deal p hlast, if_neg (by omega), Nat.add_zero]

/-- `44_multi_key_engine.md` R146: XM fills the first positions, as many as the policy says, with the bytes of its lanes. -/
theorem xm_positions (t : TailPolicy) (p : List Byte) (m : Mode) :
    (xm t p ks m).length = xmLength t p.length ks.length ∧
    ∀ j, j < xmLength t p.length ks.length → (xm t p ks m)[j]? = laneByte (laneOutputs p ks m) j := by
  cases t with
  | drop =>
    obtain ⟨hle, hshortest⟩ := shortest_laneOutputs hks p m
    have hdrop := weave_drop hle hshortest
    rwa [length_laneOutputs] at hdrop
  | keep =>
    have hbytes := laneByte_laneOutputs_isSome_iff hks p m
    refine weave_of_laneByte_isSome_iff (not_lt.1 fun hshort => ?_) fun j _ => hbytes j
    exact (lt_of_laneByte_isSome ((hbytes _).2 hshort)).false

theorem length_xm (t : TailPolicy) (p : List Byte) (m : Mode) : (xm t p ks m).length = xmLength t p.length ks.length :=
  (xm_positions hks t p m).1

theorem getElem?_xm {t : TailPolicy} {p : List Byte} (m : Mode) {j : Nat} (hj : j < xmLength t p.length ks.length) :
    (xm t p ks m)[j]? = laneByte (laneOutputs p ks m) j :=
  (xm_positions hks t p m).2 j hj

/-- Two runs of XM with the same length and the same lane bytes have the same result. -/
theorem xm_eq_of_laneByte_eq {t t' : TailPolicy} {p p' : List Byte} {m : Mode}
    (hlen : xmLength t p.length ks.length = xmLength t' p'.length ks.length)
    (h : ∀ j, j < xmLength t p.length ks.length → laneByte (laneOutputs p ks m) j = laneByte (laneOutputs p' ks m) j) :
    xm t p ks m = xm t' p' ks m := by
  apply List.ext_getElem?
  intro j
  rcases lt_or_ge j (xmLength t p.length ks.length) with hj | hj
  · rw [getElem?_xm hks m hj, getElem?_xm hks m (hlen ▸ hj), h j hj]
  · rw [List.getElem?_eq_none (by rwa [length_xm hks]), List.getElem?_eq_none (by rwa [length_xm hks, ← hlen])]

/-- `44_multi_key_engine.md` R146: with no incomplete round the policies agree. -/
theorem xm_drop_eq_xm_keep {p : List Byte} (m : Mode) (hp : p.length % ks.length = 0) : xm .drop p ks m = xm .keep p ks m :=
  xm_eq_of_laneByte_eq hks (Nat.div_mul_cancel (Nat.dvd_of_mod_eq_zero hp)) fun _ _ => rfl

end

/-- `44_multi_key_engine.md` R146: a valid multi-key command ends in success, whatever tail it loses. -/
theorem exec_multiKey_status {n : Imm16} {s : State} (h : multiKeyCheck n s = none) {i : Instr} (hi : i = .xmE n ∨ i = .xmD n) :
    ∃ t, exec i s = .next t ∧ t.status = 1 := by
  have hcheck : checkOf i s = none := by rcases hi with rfl | rfl <;> exact h
  exact ⟨_, exec_eq i s, by rw [hcheck, finish_none, complete_status]; rfl⟩

/-- Settles O15: `weave_drop` for any lane outputs, `xm_positions` for the lanes of XM, `exec_multiKey_status` for the lost tail. -/
theorem interleavePositions : Obligations.InterleavePositions := by
  unfold Obligations.InterleavePositions
  refine ⟨fun _ _ => weave_drop, fun t p ks m hks => ⟨length_xm hks t p m, fun j hj => ?_, xm_drop_eq_xm_keep hks m⟩,
    fun n s h => ⟨exec_multiKey_status h (.inl rfl), exec_multiKey_status h (.inr rfl)⟩⟩
  rw [getElem?_xm hks m hj, laneByte, length_laneOutputs]

/-! ### Round trip -/

/-- `43_single_key_engine.md` R130 for variant C, the engine of every lane. -/
@[simp] theorem xc_xc (s : List Byte) (k : Byte) : xc (xc s k .e) k .d = s := stream_stream .c s k

/-- `43_single_key_engine.md` R132: a stream cut short yields the cut output. -/
theorem stream_take (v : Variant) (m : Mode) (s : List Byte) (seed : Byte) (n : Nat) :
    stream v m (s.take n) seed = (stream v m s seed).take n := by
  induction s generalizing seed n with
  | nil => simp
  | cons x s ih =>
    cases n with
    | zero => rfl
    | succ n => rw [List.take_succ_cons, stream_cons, stream_cons, ih, List.take_succ_cons]

section
variable {ks : List Byte} (hks : ks ≠ [])
include hks

/-- `44_multi_key_engine.md` R147: under DROP the engine works on the whole rounds of its input. -/
theorem xm_drop_eq_xm_keep_take (p : List Byte) (m : Mode) :
    xm .drop p ks m = xm .keep (p.take (p.length / ks.length * ks.length)) ks m := by
  have hn : 0 < ks.length := List.length_pos_iff.2 hks
  have hlen : (p.take (p.length / ks.length * ks.length)).length = p.length / ks.length * ks.length :=
    List.length_take_of_le (Nat.div_mul_le_self _ _)
  refine xm_eq_of_laneByte_eq hks hlen.symm fun j hj => ?_
  have hround : j / ks.length < p.length / ks.length := (Nat.div_lt_iff_lt_mul hn).2 hj
  rw [laneByte_laneOutputs, laneByte_laneOutputs, deal_take_mul p (Nat.mod_lt j hn)]
  simp only [xc, stream_take, List.getElem?_take, if_pos hround]

/-- Under KEEP every lane byte stands at its position in the result. -/
theorem getElem?_xm_keep (p : List Byte) (m : Mode) (j : Nat) : (xm .keep p ks m)[j]? = laneByte (laneOutputs p ks m) j := by
  rcases lt_or_ge j p.length with hj | hj
  · exact getElem?_xm hks m hj
  · have hnone : laneByte (laneOutputs p ks m) j = none := by
      rwa [← Option.not_isSome_iff_eq_none, laneByte_laneOutputs_isSome_iff hks, not_lt]
    rw [hnone, List.getElem?_eq_none_iff, length_xm hks]
    exact hj

/-- `44_multi_key_engine.md` R142, R146: dealing what the interleave made gives the lane outputs back. -/
theorem deal_xm_keep (p : List Byte) (m : Mode) {i : Nat} (hi : i < ks.length) :
    deal (xm .keep p ks m) ks.length i = xc (deal p ks.length i) ks[i] m := by
  apply List.ext_getElem?
  intro r
  rw [getElem?_deal _ hi, getElem?_xm_keep hks, laneByte_laneOutputs, position_mod hi, position_div hi,
    List.getElem?_eq_getElem hi, Option.bind_some]

/-- `44_multi_key_engine.md` R152 under KEEP: every lane decrypts its own output. -/
theorem xm_keep_xm_keep (p : List Byte) : xm .keep (xm .keep p ks .e) ks .d = p := by
  have hn : 0 < ks.length := List.length_pos_iff.2 hks
  apply List.ext_getElem?
  intro j
  have hlane : j % ks.length < ks.length := Nat.mod_lt j hn
  rw [getElem?_xm_keep hks, laneByte_laneOutputs, List.getElem?_eq_getElem hlane, Option.bind_some, deal_xm_keep hks p .e hlane,
    xc_xc, getElem?_deal_div p hn]

/-- `44_multi_key_engine.md` R152 under DROP: the result of the first run has whole rounds only, so the second loses nothing. -/
theorem xm_drop_xm_drop (p : List Byte) :
    xm .drop (xm .drop p ks .e) ks .d = p.take (p.length / ks.length * ks.length) := by
  have hwhole : (xm .drop p ks .e).length % ks.length = 0 := by
    rw [length_xm hks]
    exact Nat.mul_mod_left _ _
  rw [xm_drop_eq_xm_keep hks .d hwhole, xm_drop_eq_xm_keep_take hks p .e, xm_keep_xm_keep hks]

end

/-- Settles O17: `xm_drop_xm_drop` and `xm_keep_xm_keep`; a multiple of N has no tail to lose. -/
theorem multiKeyRoundTrip : Obligations.MultiKeyRoundTrip := by
  unfold Obligations.MultiKeyRoundTrip
  refine fun p ks hks => ⟨xm_drop_xm_drop hks p, fun hp => ?_, xm_keep_xm_keep hks p⟩
  rw [xm_drop_xm_drop hks, Nat.div_mul_cancel (Nat.dvd_of_mod_eq_zero hp), List.take_length]

end Sys2Proof.Machine

/-! ## `60_exceptions.md`: the checks of a command, and what follows them

A command either carries a seed or opens lanes (`seedCommands`, `laneCommands`), and OP of its word says which
(`op_encode_eq_four_iff`). For each kind one lemma per step of R167 gives the cause its checks find. A found cause is what the
command ends with (`exec_of_checkOf_some`); with none found it completes (`exec_of_checkOf_none`) with the length of its result
(`toNat_outlen_complete`). -/

namespace Sys2Proof.Machine

open Sys2Proof.Claims

/-! ### The two kinds of command -/

/-- The commands that validate IMM16 as a key, the seed (`43_single_key_engine.md` R122). -/
def seedCommands (k : Imm16) : List Instr := [.xa k, .xbE k, .xbD k, .xcE k, .xcD k]

/-- The commands that validate IMM16 as a partition count (`44_multi_key_engine.md` R149). -/
def laneCommands (n : Imm16) : List Instr := [.xmE n, .xmD n]

theorem mem_seedCommands {i : Instr} {k : Imm16} :
    i ∈ seedCommands k ↔ i = .xa k ∨ i = .xbE k ∨ i = .xbD k ∨ i = .xcE k ∨ i = .xcD k := by
  simp [seedCommands]

theorem mem_laneCommands {i : Instr} {n : Imm16} : i ∈ laneCommands n ↔ i = .xmE n ∨ i = .xmD n := by
  simp [laneCommands]

theorem op_assemble (k : Imm16) (m : BitVec 1) (o : BitVec 4) : op (assemble k m o) = o.toNat := by
  rw [op, ← toNat_opField, opField_assemble]

/-- `30_encoding.md` R76: OP = 4 for the two multi-key commands. -/
theorem op_encode_eq_four_iff (i : Instr) : op (encode i) = 4 ↔ i ∈ laneCommands i.imm16 := by
  rw [mem_laneCommands]
  cases i <;> simp [encode, op_assemble, Instr.imm16]

/-- `30_encoding.md` R76: OP is another number for the five single-key commands. -/
theorem op_encode_ne_four_iff (i : Instr) : op (encode i) ≠ 4 ↔ i ∈ seedCommands i.imm16 := by
  rw [mem_seedCommands]
  cases i <;> simp [encode, op_assemble, Instr.imm16]

/-- `30_encoding.md` R71: IMM16 of the word of a command is the command's operand. -/
theorem imm_encode (i : Instr) : imm (encode i) = i.imm16.toNat := ((eq_encode_iff_row (encode i) i).1 rfl).2.symm

/-! ### The checks, in the order of R167 -/

theorem checkOf_seedCommand {i : Instr} {k : Imm16} (hi : i ∈ seedCommands k) (s : State) : checkOf i s = singleKeyCheck k s := by
  obtain rfl | rfl | rfl | rfl | rfl := mem_seedCommands.1 hi <;> rfl

theorem checkOf_laneCommand {i : Instr} {n : Imm16} (hi : i ∈ laneCommands n) (s : State) : checkOf i s = multiKeyCheck n s := by
  obtain rfl | rfl := mem_laneCommands.1 hi <;> rfl

/-- `60_exceptions.md` R167, step 2. -/
theorem multiKeyCheck_of_lenRange {s : State} (n : Imm16) (hlen : s.cfg.lmax < s.inlen.toNat) :
    multiKeyCheck n s = some .lenRange := if_pos hlen

/-- `60_exceptions.md` R167, step 2, which all seven commands make. -/
theorem checkOf_of_lenRange {s : State} (i : Instr) (hlen : s.cfg.lmax < s.inlen.toNat) : checkOf i s = some .lenRange := by
  by_cases hop : op (encode i) = 4
  · rw [checkOf_laneCommand ((op_encode_eq_four_iff i).1 hop), multiKeyCheck_of_lenRange _ hlen]
  · rw [checkOf_seedCommand ((op_encode_ne_four_iff i).1 hop), singleKeyCheck_of_lenRange _ hlen]

section
variable {n : Imm16} {s : State} (hlen : s.inlen.toNat ≤ s.cfg.lmax)
include hlen

/-- `60_exceptions.md` R167, step 3. -/
theorem multiKeyCheck_of_keyCount (hcount : n.toNat = 0 ∨ s.cfg.nmax < n.toNat ∨ n.toNat ≠ s.kcnt.toNat) :
    multiKeyCheck n s = some .keyCount := by
  rw [multiKeyCheck, if_neg (not_lt.2 hlen), if_pos hcount]

variable (hpos : 1 ≤ n.toNat) (hmax : n.toNat ≤ s.cfg.nmax) (hcnt : n.toNat = s.kcnt.toNat)
include hpos hmax hcnt

/-- Past steps 2 and 3 the slots decide. -/
theorem multiKeyCheck_eq_ite_keySlots :
    multiKeyCheck n s = if (keySlots s n.toNat).any outOfKeyRange then some .keyRange else none := by
  have hcount : ¬ (n.toNat = 0 ∨ s.cfg.nmax < n.toNat ∨ n.toNat ≠ s.kcnt.toNat) := by omega
  rw [multiKeyCheck, if_neg (not_lt.2 hlen), if_neg hcount]

/-- `60_exceptions.md` R167, step 4. -/
theorem multiKeyCheck_of_keyRange (hkey : ∃ i, i < n.toNat ∧ 255 < (Cells.read s.key i).toNat) :
    multiKeyCheck n s = some .keyRange := by
  rw [multiKeyCheck_eq_ite_keySlots hlen hpos hmax hcnt, if_pos (by simpa [keySlots, outOfKeyRange] using hkey)]

theorem multiKeyCheck_of_valid (hkey : ∀ i, i < n.toNat → (Cells.read s.key i).toNat ≤ 255) : multiKeyCheck n s = none := by
  rw [multiKeyCheck_eq_ite_keySlots hlen hpos hmax hcnt, if_neg (by simpa [keySlots, outOfKeyRange] using hkey)]

end

/-! ### What follows the checks -/

/-- `60_exceptions.md` R166: a command ends with the cause its checks found. -/
theorem exec_of_checkOf_some {i : Instr} {s : State} {c : Cause} (h : checkOf i s = some c) :
    exec i s = .next (failed c.code.toNat s) := by
  rw [exec_eq, h, finish_some, raise_eq_failed]

/-- The five single-key commands make one byte per input byte. -/
theorem length_resultOf_seedCommand {i : Instr} {k : Imm16} (hi : i ∈ seedCommands k) (s : State) :
    (resultOf i s).length = s.inlen.toNat := by
  obtain rfl | rfl | rfl | rfl | rfl := mem_seedCommands.1 hi <;> exact (length_stream _ _ _ _).trans (length_inputSeq s)

/-- `44_multi_key_engine.md` R146: the tail policy decides how many bytes the two multi-key commands make. -/
theorem length_resultOf_laneCommand {i : Instr} {n : Imm16} (hi : i ∈ laneCommands n) {s : State} (hn : 1 ≤ n.toNat) :
    (resultOf i s).length = xmLength s.cfg.tail s.inlen.toNat n.toNat := by
  have hkeys : keySet s n.toNat ≠ [] := List.ne_nil_of_length_pos (by rwa [length_keySet])
  have hxm (m : Mode) := length_xm hkeys s.cfg.tail (inputSeq s) m
  rw [length_inputSeq, length_keySet] at hxm
  obtain rfl | rfl := mem_laneCommands.1 hi
  · exact hxm .e
  · exact hxm .d

theorem xmLength_le (t : TailPolicy) (l n : Nat) : xmLength t l n ≤ l := by
  cases t with
  | drop => exact Nat.div_mul_le_self l n
  | keep => exact le_rfl

/-- `60_exceptions.md` R169: once validation has passed, a command completes. -/
theorem exec_of_checkOf_none {i : Instr} {s : State} (h : checkOf i s = none) :
    exec i s = .next (complete (resultOf i s) s) := by
  rw [exec_eq, h, finish_none]

/-- OUTLEN can hold the length of every result no longer than the input. -/
theorem toNat_outlen_complete {o : List Byte} {s : State} (ho : o.length ≤ s.inlen.toNat) :
    (complete o s).outlen.toNat = o.length := by
  rw [complete_outlen, BitVec.toNat_ofNat, Nat.mod_eq_of_lt (ho.trans_lt s.inlen.isLt)]

/-- Settles O42: each kind of command passes its checks and completes, every command answers a next state (`exec_eq`), and there is
no fault for a step to end in. -/
theorem validCommandsComplete : Obligations.ValidCommandsComplete := by
  unfold Obligations.ValidCommandsComplete
  refine ⟨fun k s hlen hkey i hi => ?seed, fun n s hlen hpos hmax hcnt hkey i hi => ?lanes, fun i s => ⟨_, exec_eq i s⟩,
    fun s f => nomatch f⟩
  case seed =>
    have hcheck : checkOf i s = none := (checkOf_seedCommand hi s).trans (singleKeyCheck_of_valid hlen hkey)
    have hresult := length_resultOf_seedCommand hi s
    exact ⟨_, exec_of_checkOf_none hcheck, rfl, BitVec.eq_of_toNat_eq ((toNat_outlen_complete hresult.le).trans hresult)⟩
  case lanes =>
    have hcheck : checkOf i s = none := (checkOf_laneCommand hi s).trans (multiKeyCheck_of_valid hlen hpos hmax hcnt hkey)
    have hresult := length_resultOf_laneCommand hi (s := s) hpos
    have hle := hresult.trans_le (xmLength_le _ _ _)
    exact ⟨_, exec_of_checkOf_none hcheck, rfl, (toNat_outlen_complete hle).trans hresult⟩

/-! ### A write to CMD -/

/-- A write of the word of a command to CMD runs the command. -/
theorem step_wrCmd_encode {s : State} {i : Instr} {rest : List Access} (h : s.pending = .wrCsr 0 (encode i) :: rest) :
    step s = exec i (s.setPending rest) := by
  rw [step_wrCmd h, issue_ok (decode_encode i)]

/-- Settles O30: an illegal word is rejected before any operand is read; a legal one is the word of some command, of the kind its OP
says, and the command's checks decide. -/
theorem validationOrderAndEffect : Obligations.ValidationOrderAndEffect := by
  unfold Obligations.ValidationOrderAndEffect
  intro s w rest hp u
  by_cases hw : Illegal w
  · exact ⟨fun _ => illegalWordsFail w s rest hw hp, fun h => absurd hw h, fun h => absurd hw h, fun h => absurd hw h,
      fun h => absurd hw h, fun _ _ => rfl⟩
  obtain ⟨i, rfl⟩ := exists_encode_of_not_illegal hw
  have hfail {c : Cause} (h : checkOf i u = some c) : step s = .next (failed c.code.toNat u) :=
    (step_wrCmd_encode hp).trans (exec_of_checkOf_some h)
  have hsucceed (h : checkOf i u = none) : ∃ t, step s = .next t ∧ t.status = 1 :=
    ⟨_, (step_wrCmd_encode hp).trans (exec_of_checkOf_none h), rfl⟩
  rw [imm_encode, op_encode_eq_four_iff, op_encode_ne_four_iff]
  refine ⟨fun h => absurd h hw, fun _ hlen => hfail (checkOf_of_lenRange (s := u) i hlen), fun _ hlen hi hcount => ?keyCount,
    fun _ hlen hi hpos hmax hcnt => ⟨fun hkey => ?laneKeyRange, fun hkey => ?laneValid⟩,
    fun _ hlen hi => ⟨fun hkey => ?seedKeyRange, fun hkey => ?seedValid⟩, fun _ _ => rfl⟩
  case keyCount => exact hfail ((checkOf_laneCommand hi u).trans (multiKeyCheck_of_keyCount (s := u) hlen hcount))
  case laneKeyRange =>
    exact hfail ((checkOf_laneCommand hi u).trans (multiKeyCheck_of_keyRange (s := u) hlen hpos hmax hcnt hkey))
  case laneValid =>
    exact hsucceed ((checkOf_laneCommand hi u).trans (multiKeyCheck_of_valid (s := u) hlen hpos hmax hcnt hkey))
  case seedKeyRange => exact hfail ((checkOf_seedCommand hi u).trans (singleKeyCheck_of_keyRange (s := u) hlen hkey))
  case seedValid => exact hsucceed ((checkOf_seedCommand hi u).trans (singleKeyCheck_of_valid (s := u) hlen hkey))

end Sys2Proof.Machine

/-! ## `30_encoding.md`: decode and encode agree, and how many words are commands

A word decodes to a command exactly when it is the command's word (`decode_ok_iff`), so there are as many words that decode as
commands (`card_decodable`), and a command is a row of the opcode map with an operand (`instrEquiv`). -/

namespace Sys2Proof

open Sys2Proof.Claims

/-- The match values of the opcode map, in the order of `30_encoding.md` R76. -/
def matchValues : List Word := [0x01, 0x02, 0x12, 0x03, 0x13, 0x04, 0x14]

theorem rowMatch_mem_matchValues (i : Instr) : Laws.rowMatch i ∈ matchValues := by
  cases i <;> simp [Laws.rowMatch, matchValues]

/-- The commands by row, the operand open. -/
def ofRow : Fin 7 → Imm16 → Instr := ![.xa, .xbE, .xbD, .xcE, .xcD, .xmE, .xmD]

theorem rowMatch_ofRow (r : Fin 7) (k : Imm16) : Laws.rowMatch (ofRow r k) = matchValues[r] := by
  fin_cases r <;> rfl

theorem imm16_ofRow (r : Fin 7) (k : Imm16) : (ofRow r k).imm16 = k := by
  fin_cases r <;> rfl

/-- `30_encoding.md` R78: a word that matches no row of the map is illegal, and no other is. -/
theorem not_illegal_iff_lowHalf_mem (w : Word) : ¬ Illegal w ↔ w &&& 0x0000FFFF#32 ∈ matchValues := by
  rw [← exists_decode_ok_iff]
  constructor
  · rintro ⟨i, hi⟩
    obtain ⟨hlow, -⟩ := (decode_ok_iff_row w i).1 hi
    rw [hlow]
    exact rowMatch_mem_matchValues i
  · intro hlow
    obtain ⟨r, hr⟩ := List.mem_iff_get.1 hlow
    have himm : (ofRow r (immField w)).imm16.toNat = imm w :=
      (congrArg BitVec.toNat (imm16_ofRow r _)).trans (toNat_immField w)
    exact ⟨_, (decode_ok_iff_row w _).2 ⟨hr.symm.trans (rowMatch_ofRow r _).symm, himm⟩⟩

/-- The row of a command, counted from 0. -/
def Instr.row : Instr → Fin 7
  | .xa _ => 0
  | .xbE _ => 1
  | .xbD _ => 2
  | .xcE _ => 3
  | .xcD _ => 4
  | .xmE _ => 5
  | .xmD _ => 6

/-- A command is a row and an operand. -/
def instrEquiv : Instr ≃ Fin 7 × Imm16 where
  toFun i := (i.row, i.imm16)
  invFun p := ofRow p.1 p.2
  left_inv i := by cases i <;> rfl
  right_inv := by
    rintro ⟨r, k⟩
    fin_cases r <;> rfl

theorem card_instr : Nat.card Instr = 7 * 65536 := by
  rw [Nat.card_congr instrEquiv, Nat.card_prod, Nat.card_fin, Nat.card_congr BitVec.equivFin.toEquiv, Nat.card_fin]
  rfl

/-- The words that decode are the words of the commands, one each. -/
theorem card_decodable : Nat.card { w : Word // ∃ i, decode w = .ok i } = Nat.card Instr := by
  refine (Nat.card_eq_of_bijective (fun i : Instr => ⟨encode i, i, decode_encode i⟩) ⟨fun i j h => ?_, ?_⟩).symm
  · have hword : encode i = encode j := congrArg Subtype.val h
    simpa using congrArg decode hword
  · rintro ⟨w, i, hi⟩
    exact ⟨i, Subtype.ext (decode_ok_iff.1 hi).symm⟩

/-- What is placed as a word of 32 bits is that word. -/
@[simp] theorem tableWord_toNat (w : Word) : tableWord 32 w.toNat = w := by
  rw [tableWord, Nat.mod_eq_of_lt w.isLt, BitVec.ofNat_toNat, BitVec.setWidth_eq]

end Sys2Proof

namespace Sys2Proof.Machine

open Sys2Proof.Claims

/-- Settles O27: one direction of `decode_ok_iff` is the round trip through `encode`, the other that no second word means the same. -/
theorem decodeEncodeAgree : Obligations.DecodeEncodeAgree := by
  unfold Obligations.DecodeEncodeAgree
  exact ⟨decode_encode, fun w i h => (decode_ok_iff.1 h).symm⟩

/-- Settles O26: `not_illegal_iff_lowHalf_mem`, and the count of the commands. -/
theorem decodingIsUnambiguous : Obligations.DecodingIsUnambiguous := by
  unfold Obligations.DecodingIsUnambiguous
  exact ⟨fun w => (not_iff_comm.1 (not_illegal_iff_lowHalf_mem w)).symm, by decide, card_decodable.trans card_instr⟩

/-- Settles O28: the decoder run on each word. -/
theorem decodesTheSpecsWords : Obligations.DecodesTheSpecsWords := by
  unfold Obligations.DecodesTheSpecsWords
  decide

/-- Settles O29: a write to CMD is `issue`, and the word that is placed is the word that is written. -/
theorem stepRunsTheDecodedCommand : Obligations.StepRunsTheDecodedCommand := by
  unfold Obligations.StepRunsTheDecodedCommand
  refine ⟨fun s w rest i hp hw => ?_, fun s w rest r hp hw => ?_, fun s w i hw => ?_⟩
  · rw [step_wrCmd hp, issue_ok hw]
  · rw [step_wrCmd hp, issue_error hw, raise_eq_failed]
    rfl
  · have hp : (s.withFetchWord 32 w.toNat).pending = .wrCsr 0 w :: s.pending := by
      rw [State.withFetchWord, issueNext, tableWord_toNat, State.setPending_pending]
    rw [step_wrCmd hp, issue_ok hw]
    rfl

end Sys2Proof.Machine

/-! ## `10_state.md`, `20_memory.md`: what a command leaves as it was, and the invariant

Every command ends in `finish`, and a write to CMD in `finish` too, so one lemma says what each of them keeps
(`operandsKept_finish`, `finish_inv`). A result is never longer than the input (`length_resultOf_le`), hence fits OUT. -/

namespace Sys2Proof.Machine

open Sys2Proof.Claims

/-! ### The frame of a command -/

theorem operandsKept_finish (failed : Option Cause) (o : List Byte) (s : State) : OperandsKept s (finish failed o s) :=
  ⟨finish_inlen .., finish_kcnt .., finish_key .., finish_inBuf .., finish_cfg .., finish_pending .., finish_replies ..⟩

/-- `20_memory.md` R55 for a write to CMD, whatever its word. -/
theorem operandsKept_issue {w : Word} {s t : State} (h : issue w s = .next t) : OperandsKept s t := by
  obtain ⟨c, rfl⟩ | ⟨_, _, o, rfl⟩ := issue_cases h
  · exact operandsKept_finish (some c) [] s
  · exact operandsKept_finish none o s

/-- `60_exceptions.md` R167: what the checks of a multi-key command let pass. -/
theorem multiKeyCheck_eq_none_iff {n : Imm16} {s : State} :
    multiKeyCheck n s = none ↔ s.inlen.toNat ≤ s.cfg.lmax ∧ 1 ≤ n.toNat ∧ n.toNat ≤ s.cfg.nmax ∧ n.toNat = s.kcnt.toNat ∧
      ∀ i, i < n.toNat → (Cells.read s.key i).toNat ≤ 255 := by
  refine ⟨fun h => ?_, fun ⟨hlen, hpos, hmax, hcnt, hkey⟩ => multiKeyCheck_of_valid hlen hpos hmax hcnt hkey⟩
  have hlen : s.inlen.toNat ≤ s.cfg.lmax := by
    by_contra hlen
    simp [multiKeyCheck_of_lenRange n (not_le.1 hlen)] at h
  have hcount : ¬ (n.toNat = 0 ∨ s.cfg.nmax < n.toNat ∨ n.toNat ≠ s.kcnt.toNat) := fun hcount => by
    simp [multiKeyCheck_of_keyCount hlen hcount] at h
  refine ⟨hlen, by omega, by omega, by omega, fun i hi => ?_⟩
  by_contra hkey
  simp [multiKeyCheck_of_keyRange hlen (by omega) (by omega) (by omega) ⟨i, hi, not_le.1 hkey⟩] at h

/-- `44_multi_key_engine.md` R146, `43_single_key_engine.md` R120: a command that passes its checks makes no more bytes than it
reads. -/
theorem length_resultOf_le {i : Instr} {s : State} (h : checkOf i s = none) : (resultOf i s).length ≤ s.inlen.toNat := by
  by_cases hop : op (encode i) = 4
  · have hi := (op_encode_eq_four_iff i).1 hop
    rw [checkOf_laneCommand hi] at h
    obtain ⟨-, hpos, -⟩ := multiKeyCheck_eq_none_iff.1 h
    exact (length_resultOf_laneCommand hi hpos).trans_le (xmLength_le _ _ _)
  · exact (length_resultOf_seedCommand ((op_encode_ne_four_iff i).1 hop) s).le

/-- Settles O43: only `complete` stores to OUT, and only the bytes of the result. -/
theorem commandFrame : Obligations.CommandFrame := by
  unfold Obligations.CommandFrame
  intro i s t hs h
  obtain rfl := exec_next_iff.1 h
  refine ⟨operandsKept_finish _ _ s, fun j hj => ?_⟩
  rcases hcheck : checkOf i s with _ | c
  · have hle := length_resultOf_le hcheck
    obtain ⟨-, -, -, -, hbeyond, -⟩ := succeeded_complete hs (inlen_le_of_checkOf_none hcheck) hle
    rw [hcheck, finish_none, toNat_outlen_complete hle] at hj
    exact hbeyond j hj
  · rfl

/-! ### The invariant -/

theorem resetFor_inv {c : Config} (hc : c.wf = true) : (State.resetFor c).Inv :=
  (State.inv_iff _).2 ⟨hc, Cells.wf_nil _, Cells.wf_nil _, Cells.wf_nil _, Nat.zero_le _, rfl, .inr rfl⟩

/-- Settles O36: an empty file is in canonical form, whatever its size. -/
theorem invariantHoldsAtReset : Obligations.InvariantHoldsAtReset := by
  unfold Obligations.InvariantHoldsAtReset
  exact ⟨resetFor_inv (c := referenceConfig) (by decide), fun c hc => resetFor_inv hc⟩

/-- `60_exceptions.md` R162: what raising a cause leaves in STATUS is one of the words STATUS can hold. -/
theorem statusLegal_statusFailure (c : Cause) : statusLegal (statusFailure c) = true := by cases c <;> decide

theorem raise_inv (c : Cause) {s : State} (hs : s.Inv) : (raise c s).Inv := by
  obtain ⟨hcfg, hkey, hin, hout, -, -, -⟩ := s.inv_iff.1 hs
  exact (State.inv_iff _).2 ⟨hcfg, hkey, hin, hout, Nat.zero_le _, statusLegal_statusFailure c, .inr rfl⟩

theorem complete_inv {o : List Byte} {s : State} (hs : s.Inv) (ho : o.length ≤ s.cfg.lmax) : (complete o s).Inv := by
  obtain ⟨hcfg, hkey, hin, hout, -, -, -⟩ := s.inv_iff.1 hs
  have hlen : (BitVec.ofNat 32 o.length).toNat ≤ o.length := by
    rw [BitVec.toNat_ofNat]
    exact Nat.mod_le _ _
  exact (State.inv_iff _).2
    ⟨hcfg, hkey, hin, wf_writeSeq hout 0 o (by omega), hlen.trans ho, rfl, .inl rfl⟩

/-- Every command keeps the invariant. -/
theorem exec_inv {i : Instr} {s t : State} (hs : s.Inv) (h : exec i s = .next t) : t.Inv := by
  obtain rfl := exec_next_iff.1 h
  rcases hcheck : checkOf i s with _ | c
  · exact complete_inv hs ((length_resultOf_le hcheck).trans (inlen_le_of_checkOf_none hcheck))
  · exact raise_inv c hs

theorem issue_inv {w : Word} {s t : State} (hs : s.Inv) (h : issue w s = .next t) : t.Inv := by
  rcases hw : decode w with r | i
  · rw [issue_error hw] at h
    cases h
    exact raise_inv .illegalCmd hs
  · rw [issue_ok hw] at h
    exact exec_inv hs h

/-- Every access keeps the invariant. -/
theorem serve_inv {a : Access} {s t : State} (hs : s.Inv) (h : serve a s = .next t) : t.Inv := by
  obtain ⟨hcfg, hkey, hin, hrest⟩ := s.inv_iff.1 hs
  obtain ⟨r, rfl, -⟩ | ⟨w, -, hw⟩ | ⟨rfl, -⟩ | ⟨v, -, rfl⟩ | ⟨v, -, rfl⟩ | ⟨i, v, -, hi, rfl⟩ | ⟨j, v, -, hj, rfl⟩ | ⟨-, rfl⟩ :=
    serve_cases h
  · exact hs
  · exact issue_inv hs hw
  · exact hs
  · exact hs
  · exact hs
  · exact (State.inv_iff _).2 ⟨hcfg, Cells.wf_write hkey hi v, hin, hrest⟩
  · exact (State.inv_iff _).2 ⟨hcfg, hkey, Cells.wf_write hin hj v, hrest⟩
  · exact resetFor_inv hcfg

theorem step_inv {s t : State} (hs : s.Inv) (h : step s = .next t) : t.Inv := by
  obtain ⟨-, rfl⟩ | ⟨a, rest, -, ha⟩ := step_cases h
  · exact hs
  · exact serve_inv (s := s.setPending rest) hs ha

/-- Settles O37: `serve_inv`, access by access. -/
theorem stepKeepsInvariant : Obligations.StepKeepsInvariant := by
  unfold Obligations.StepKeepsInvariant
  exact fun s t => step_inv

end Sys2Proof.Machine

/-! ## `20_memory.md`: the host's accesses, in order and inside the map

What serving an access does does not depend on the accesses behind it (`serve_setPending`), so a list of accesses runs the same
whatever follows it (`run_append`). An access has a step exactly when its element exists (`serve_next_iff_wf`), and since there
is no fault, an access without a step is refused (`exists_refused`). -/

namespace Sys2Proof.Machine

/-! ### Program order -/

theorem finish_setPending (failed : Option Cause) (o : List Byte) (s : State) (as : List Access) :
    finish failed o (s.setPending as) = (finish failed o s).setPending as := by cases failed <;> rfl

/-- A write to CMD sees no access issued after it. -/
theorem issue_setPending {w : Word} {s t : State} (h : issue w s = .next t) (as : List Access) :
    issue w (s.setPending as) = .next (t.setPending as) := by
  rcases hw : decode w with r | i
  · rw [issue_error hw] at h ⊢
    cases h
    rfl
  · rw [issue_ok hw, exec_eq] at h ⊢
    cases h
    rw [checkOf_congr (s := s) (u := s.setPending as) i rfl rfl rfl rfl,
      resultOf_congr (s := s) (u := s.setPending as) i rfl rfl rfl rfl, finish_setPending]

theorem serve_wrOut_next_iff {j : Nat} {v : Byte} {s t : State} :
    serve (.wrOut j v) s = .next t ↔ j < s.cfg.lmax ∧ t = s := by
  by_cases hj : j < s.cfg.lmax <;> simp [serve, writeOut, hj, store, eq_comm]

/-- `20_memory.md` R58: no access sees one issued after it. -/
theorem serve_setPending {a : Access} {s t : State} (h : serve a s = .next t) (as : List Access) :
    serve a (s.setPending as) = .next (t.setPending as) := by
  cases a with
  | rdCsr n | rdKey n | rdIn n | rdOut n =>
    obtain ⟨r, hr, rfl⟩ := answer_next_iff.1 h
    exact answer_next_iff.2 ⟨r, hr, rfl⟩
  | wrCsr n v =>
    match n with
    | 0 => exact issue_setPending h as
    | 1 | 2 | 3 | 4 => cases h; rfl
    | n + 5 => exact nomatch h
  | wrKey i v =>
    obtain ⟨hi, rfl⟩ := serve_wrKey_next_iff.1 h
    exact serve_wrKey_next_iff.2 ⟨hi, rfl⟩
  | wrIn j v =>
    obtain ⟨hj, rfl⟩ := serve_wrIn_next_iff.1 h
    exact serve_wrIn_next_iff.2 ⟨hj, rfl⟩
  | wrOut j v =>
    obtain ⟨hj, rfl⟩ := serve_wrOut_next_iff.1 h
    exact serve_wrOut_next_iff.2 ⟨hj, rfl⟩
  | otherWidth sp index bits => exact nomatch h
  | otherSpace id index => exact nomatch h
  | reset => cases h; rfl

/-- Serving an access issues none and withdraws none. -/
theorem serve_pending {a : Access} {s t : State} (h : serve a s = .next t) : t.pending = s.pending := by
  have hsame : t = t.setPending s.pending := Host.Outcome.next.inj (h.symm.trans (serve_setPending h s.pending))
  rw [hsame, State.setPending_pending]

@[simp] theorem State.setPending_setPending (s : State) (as bs : List Access) :
    (s.setPending as).setPending bs = s.setPending bs := rfl

/-- A run serves the first access and goes on from there. -/
theorem run_served {s t : State} {a : Access} {as : List Access} (h : serve a (s.setPending as) = .next t) (n : Nat) :
    run (n + 1) (s.setPending (a :: as)) = run n t := by
  rw [run_cons (State.setPending_pending s (a :: as)), State.setPending_setPending, h]

/-- A run that ends in a state has served its first access. -/
theorem exists_served_of_run {s t : State} {a : Access} {as : List Access} {n : Nat}
    (h : run (n + 1) (s.setPending (a :: as)) = .next t) : ∃ u, serve a (s.setPending as) = .next u ∧ run n u = .next t := by
  rw [run_cons (State.setPending_pending s (a :: as)), State.setPending_setPending] at h
  rcases hu : serve a (s.setPending as) with u | f | r
  · exact ⟨u, rfl, by rwa [hu] at h⟩
  · exact nomatch f
  · simp [hu] at h

/-- `20_memory.md` R58: the accesses of a list take effect before those that follow it, and do not depend on them. -/
theorem run_append {s t : State} {as : List Access} (h : run as.length (s.setPending as) = .next t) (bs : List Access) :
    t.pending = [] ∧ run as.length (s.setPending (as ++ bs)) = .next (t.setPending bs) := by
  induction as generalizing s with
  | nil =>
    cases h
    exact ⟨rfl, rfl⟩
  | cons a as ih =>
    obtain ⟨u, hu, hrun⟩ := exists_served_of_run h
    have hpend : u.setPending as = u := by rw [← State.setPending_pending s as, ← serve_pending hu]; rfl
    rw [← hpend] at hrun
    have hlater : serve a (s.setPending (as ++ bs)) = .next (u.setPending (as ++ bs)) := serve_setPending hu (as ++ bs)
    rw [List.length_cons, List.cons_append, run_served hlater]
    exact ih hrun

/-- Settles O31: `step_cons`, `run_append`, `serve_setPending`, `step_nil`. -/
theorem accessesTakeEffectInProgramOrder : Obligations.AccessesTakeEffectInProgramOrder := by
  unfold Obligations.AccessesTakeEffectInProgramOrder
  exact ⟨fun _ _ _ => step_cons, fun _ _ _ bs h => run_append h bs,
    fun s _ rest rest' _ h => serve_setPending (s := s.setPending rest) h rest', fun _ => step_nil⟩

/-! ### Inside and outside the map -/

theorem exists_answer_iff {s : State} {why : Refusal} {r : Option Reply} : (∃ t, answer s why r = .next t) ↔ r.isSome := by
  cases r <;> simp [answer]

theorem exists_store_iff {why : Refusal} {u : Option State} : (∃ t, store why u = .next t) ↔ u.isSome := by
  cases u <;> simp [store]

/-- `20_memory.md` R59: an access has a step exactly when its element exists and the access has the element's width. -/
theorem serve_next_iff_wf (a : Access) (s : State) : (∃ t, serve a s = .next t) ↔ a.wf s.cfg = true := by
  cases a with
  | rdCsr n =>
    rw [serve, exists_answer_iff]
    match n with
    | 0 | 1 | 2 | 3 | 4 => exact iff_of_true rfl rfl
    | n + 5 => simp [readCsr, Access.wf]
  | wrCsr n v =>
    match n with
    | 0 =>
      refine iff_of_true ?_ rfl
      obtain ⟨_, _, h⟩ | ⟨_, _, h⟩ := issue_eq v s <;> exact ⟨_, h⟩
    | 1 | 2 | 3 | 4 => exact iff_of_true ⟨_, rfl⟩ rfl
    | n + 5 => exact iff_of_false nofun (by simp [Access.wf])
  | rdKey i => rw [serve, exists_answer_iff]; simp [readKey, Access.wf]
  | rdIn j => rw [serve, exists_answer_iff]; simp [readIn, Access.wf]
  | rdOut j => rw [serve, exists_answer_iff]; simp [readOut, Access.wf]
  | wrKey i v => rw [serve, exists_store_iff]; simp [writeKey, Access.wf]
  | wrIn j v => rw [serve, exists_store_iff]; simp [writeIn, Access.wf]
  | wrOut j v => rw [serve, exists_store_iff]; simp [writeOut, Access.wf]
  | otherWidth sp index bits => exact iff_of_false nofun nofun
  | otherSpace id index => exact iff_of_false nofun nofun
  | reset => exact iff_of_true ⟨_, rfl⟩ rfl

/-- `60_exceptions.md` R169: there is no fault, so what has no next state is refused. -/
theorem exists_refused {o : Host.Outcome State Fault Refusal} (h : ¬ ∃ t, o = .next t) : ∃ r, o = .refused r := by
  cases o with
  | next t => exact absurd ⟨t, rfl⟩ h
  | fault f => exact nomatch f
  | refused r => exact ⟨r, rfl⟩

theorem step_next_iff_wf {s : State} {a : Access} {rest : List Access} (hp : s.pending = a :: rest) :
    (∃ t, step s = .next t) ↔ a.wf s.cfg = true := by
  rw [step_cons hp]
  exact serve_next_iff_wf a (s.setPending rest)

/-- An access whose element exists when `c` holds is served when it does and refused when it does not. -/
theorem step_served_or_refused {s : State} {a : Access} {rest : List Access} {c : Prop} [Decidable c]
    (hp : s.pending = a :: rest) (hwf : a.wf s.cfg = decide c) :
    (c → ∃ t, step s = .next t) ∧ (¬ c → ∃ r, step s = .refused r) := by
  have hiff := step_next_iff_wf hp
  rw [hwf, decide_eq_true_eq] at hiff
  exact ⟨hiff.2, fun hc => exists_refused (mt hiff.1 hc)⟩

/-- Settles O32: `Access.wf` names the boundary of each space. -/
theorem accessesServedExactlyInTheMap : Obligations.AccessesServedExactlyInTheMap := by
  unfold Obligations.AccessesServedExactlyInTheMap
  intro s rest
  refine ⟨fun n v a ha hp => ?csr, fun i v a ha hp => ?key, fun j v a ha hp => ?buffer, fun id index hp => ?space,
    fun sp index bits hp => ?width, fun hp => (step_next_iff_wf hp).2 rfl, fun a hp => (step_next_iff_wf hp).symm⟩
  case csr =>
    have hwf : a.wf s.cfg = decide (n ≤ 4) := by
      simp only [List.mem_cons, List.not_mem_nil, or_false] at ha
      obtain rfl | rfl := ha <;> rfl
    simpa using step_served_or_refused hp hwf
  case key =>
    have hwf : a.wf s.cfg = decide (i < s.cfg.nmax) := by
      simp only [List.mem_cons, List.not_mem_nil, or_false] at ha
      obtain rfl | rfl := ha <;> rfl
    simpa using step_served_or_refused hp hwf
  case buffer =>
    have hwf : a.wf s.cfg = decide (j < s.cfg.lmax) := by
      simp only [List.mem_cons, List.not_mem_nil, or_false] at ha
      obtain rfl | rfl | rfl | rfl := ha <;> rfl
    simpa using step_served_or_refused hp hwf
  case space => exact exists_refused (mt (step_next_iff_wf hp).1 nofun)
  case width => exact exists_refused (mt (step_next_iff_wf hp).1 nofun)

end Sys2Proof.Machine

/-! ## `10_state.md`: what each access does to the elements -/

namespace Sys2Proof.Machine

open Sys2Proof.Claims

/-! ### Reads -/

theorem serve_rdKey {s : State} {i : Nat} (hi : i < s.cfg.nmax) :
    serve (.rdKey i) s = .next (s.pushReply (.slot (Cells.read s.key i))) := by
  simp [serve, readKey, hi, answer]

theorem serve_rdIn {s : State} {j : Nat} (hj : j < s.cfg.lmax) :
    serve (.rdIn j) s = .next (s.pushReply (.byte (Cells.read s.inBuf j))) := by
  simp [serve, readIn, hj, answer]

theorem serve_rdOut {s : State} {j : Nat} (hj : j < s.cfg.lmax) :
    serve (.rdOut j) s = .next (s.pushReply (.byte (outByteAt s j))) := by
  simp [serve, readOut, hj, answer]

/-- `10_state.md` R32: the two sides of the read gate. -/
theorem outByteAt_of_lt {s : State} {j : Nat} (hj : j < s.outlen.toNat) : outByteAt s j = Cells.read s.outBuf j := if_pos hj

theorem outByteAt_of_le {s : State} {j : Nat} (hj : s.outlen.toNat ≤ j) : outByteAt s j = 0 := if_neg (not_lt.2 hj)

/-- Settles O47: each space's read, and the two sides of the gate. -/
theorem readsReturnTheElement : Obligations.ReadsReturnTheElement := by
  unfold Obligations.ReadsReturnTheElement
  intro s rest
  refine ⟨fun n hn hp => ?csr, fun i hi hp => ?key, fun j hj hp => ?input, fun j hj hgate hp => ?shown, fun j hj hgate hp => ?hidden⟩
  case csr =>
    rw [step_cons hp]
    match n, hn with
    | 0, _ | 1, _ | 2, _ | 3, _ | 4, _ => rfl
  case key => exact (step_cons hp).trans (serve_rdKey (s := s.setPending rest) hi)
  case input => exact (step_cons hp).trans (serve_rdIn (s := s.setPending rest) hj)
  case shown =>
    rw [step_cons hp, serve_rdOut (s := s.setPending rest) hj, outByteAt_of_lt (s := s.setPending rest) hgate]
    rfl
  case hidden => rw [step_cons hp, serve_rdOut (s := s.setPending rest) hj, outByteAt_of_le (s := s.setPending rest) hgate]

/-! ### Writes and reset -/

/-- Settles O49: what a file reads as after a write is `Cells.read_write`. -/
theorem writesStoreOneElement : Obligations.WritesStoreOneElement := by
  unfold Obligations.WritesStoreOneElement
  intro s rest hs
  obtain ⟨-, hkey, hin, -⟩ := s.inv_iff.1 hs
  refine ⟨fun v hp => step_cons hp, fun v hp => step_cons hp, fun i v hi hp => ?key, fun j v hj hp => ?input⟩
  case key =>
    refine ⟨Cells.write s.key i v, (step_cons hp).trans (serve_wrKey_next_iff.2 ⟨hi, rfl⟩), ?_, fun i' hi' => ?_⟩
    · rw [Cells.read_write hkey, if_pos rfl]
    · rw [Cells.read_write hkey, if_neg hi']
  case input =>
    refine ⟨Cells.write s.inBuf j v, (step_cons hp).trans (serve_wrIn_next_iff.2 ⟨hj, rfl⟩), ?_, fun j' hj' => ?_⟩
    · rw [Cells.read_write hin, if_pos rfl]
    · rw [Cells.read_write hin, if_neg hj']

/-- Settles O34: serving a reset is `resetEngine`. -/
theorem resetReturnsToResetValues : Obligations.ResetReturnsToResetValues := by
  unfold Obligations.ResetReturnsToResetValues
  exact fun s rest hp => step_cons hp

/-- `70_reset_and_hazards.md` section 2: KCNT is 0 after reset, and no N is both 0 and legal. -/
theorem checkOf_laneCommand_resetFor {i : Instr} {n : Imm16} (hi : i ∈ laneCommands n) (c : Config) :
    checkOf i (State.resetFor c) = some .keyCount := by
  rw [checkOf_laneCommand hi]
  refine multiKeyCheck_of_keyCount (Nat.zero_le _) ?_
  rcases Nat.eq_zero_or_pos n.toNat with hzero | hpos
  · exact .inl hzero
  · exact .inr (.inr hpos.ne')

/-- Settles O35: the operands after reset are 0, INLEN and KCNT among them. -/
theorem firstCommandAfterReset : Obligations.FirstCommandAfterReset := by
  unfold Obligations.FirstCommandAfterReset
  intro c k n
  obtain ⟨hseed, -⟩ := validCommandsComplete
  exact ⟨hseed k (State.resetFor c) (Nat.zero_le _),
    exec_of_checkOf_some (checkOf_laneCommand_resetFor (mem_laneCommands.2 (.inl rfl)) c),
    exec_of_checkOf_some (checkOf_laneCommand_resetFor (mem_laneCommands.2 (.inr rfl)) c)⟩

/-! ### Who changes what -/

/-- Whatever changed from `s` to `t`, the access `a` is the one that may change it: the host's write of the new value to the operand,
or a write to CMD for STATUS, OUTLEN and OUT (`20_memory.md` R50, R55, R56). -/
def ExplainedBy (a : Option Access) (s t : State) : Prop :=
  (t.inlen ≠ s.inlen → a = some (.wrCsr 2 t.inlen)) ∧
  (t.kcnt ≠ s.kcnt → a = some (.wrCsr 4 t.kcnt)) ∧
  (∀ i, Cells.read t.key i ≠ Cells.read s.key i → a = some (.wrKey i (Cells.read t.key i))) ∧
  (∀ j, Cells.read t.inBuf j ≠ Cells.read s.inBuf j → a = some (.wrIn j (Cells.read t.inBuf j))) ∧
  (t.status ≠ s.status ∨ t.outlen ≠ s.outlen ∨ t.outBuf ≠ s.outBuf → ∃ w, a = some (.wrCsr 0 w))

/-- In a file, a write changes the element it names, to the value it carries. -/
theorem eq_of_read_write_ne {w n : Nat} {m : Cells w} (hm : Cells.wf n m = true) {a a' : Nat} {v : BitVec w}
    (h : Cells.read (Cells.write m a v) a' ≠ Cells.read m a') : a = a' ∧ v = Cells.read (Cells.write m a v) a' := by
  rw [Cells.read_write hm] at h ⊢
  by_cases ha : a' = a
  · rw [if_pos ha]
    exact ⟨ha.symm, rfl⟩
  · exact absurd (if_neg ha) h

theorem explainedBy_refl (a : Option Access) (s : State) : ExplainedBy a s s := by
  simp [ExplainedBy]

/-- Every access but a reset explains what it changed. -/
theorem serve_explained {a : Access} {s t : State} (hs : s.Inv) (h : serve a s = .next t) (hreset : a ≠ .reset) :
    ExplainedBy (some a) s t := by
  obtain ⟨-, hkey, hin, -⟩ := s.inv_iff.1 hs
  obtain ⟨r, rfl, -⟩ | ⟨w, rfl, hw⟩ | ⟨rfl, -⟩ | ⟨v, rfl, rfl⟩ | ⟨v, rfl, rfl⟩ | ⟨i, v, rfl, -, rfl⟩ | ⟨j, v, rfl, -, rfl⟩ |
    ⟨rfl, -⟩ := serve_cases h
  · exact explainedBy_refl _ s
  · obtain ⟨hinlen, hkcnt, hkey, hin, -⟩ := operandsKept_issue hw
    simp [ExplainedBy, hinlen, hkcnt, hkey, hin]
  · exact explainedBy_refl _ _
  · simp [ExplainedBy]
  · simp [ExplainedBy]
  · have hwrite (i' : Nat) := eq_of_read_write_ne (a := i) (a' := i') (v := v) hkey
    simpa [ExplainedBy] using hwrite
  · have hwrite (j' : Nat) := eq_of_read_write_ne (a := j) (a' := j') (v := v) hin
    simpa [ExplainedBy] using hwrite
  · exact absurd rfl hreset

theorem serve_cfg {a : Access} {s t : State} (h : serve a s = .next t) : t.cfg = s.cfg := by
  obtain ⟨r, rfl, -⟩ | ⟨w, rfl, hw⟩ | ⟨rfl, -⟩ | ⟨v, rfl, rfl⟩ | ⟨v, rfl, rfl⟩ | ⟨i, v, rfl, -, rfl⟩ | ⟨j, v, rfl, -, rfl⟩ |
    ⟨rfl, rfl⟩ := serve_cases h
  case inr.inl =>
    obtain ⟨-, -, -, -, hcfg, -⟩ := operandsKept_issue hw
    exact hcfg
  all_goals rfl

/-- `20_memory.md` R56: a command run after another shows what it shows alone. -/
theorem exec_after_exec {i i' : Instr} {s t : State} (hs : s.Inv) (h : exec i s = .next t) :
    ∃ u v, exec i' t = .next u ∧ exec i' s = .next v ∧ u.status = v.status ∧ u.outlen = v.outlen ∧
      ∀ j, outByteAt u j = outByteAt v j := by
  have ht : t.Inv := exec_inv hs h
  obtain rfl := exec_next_iff.1 h
  refine ⟨_, _, exec_eq i' _, exec_eq i' s, ?_⟩
  rw [checkOf_congr (s := s) i' (by simp) (by simp) (by simp) (by simp),
    resultOf_congr (s := s) i' (by simp) (by simp) (by simp) (by simp)]
  exact finish_shows_same ht hs _ _

/-- Settles O50: `serve_cfg` and `serve_explained` for the access that is served, `exec_after_exec` for two commands. -/
theorem whoChangesWhat : Obligations.WhoChangesWhat := by
  unfold Obligations.WhoChangesWhat
  refine ⟨fun s t hs h => ?_, fun i i' s t hs h => exec_after_exec hs h⟩
  obtain ⟨-, rfl⟩ | ⟨a, rest, hp, ha⟩ := step_cases h
  · exact ⟨rfl, fun _ => explainedBy_refl _ t⟩
  · rw [hp, List.head?_cons]
    exact ⟨serve_cfg (s := s.setPending rest) ha,
      fun hreset => serve_explained (s := s.setPending rest) hs ha fun heq => hreset (congrArg some heq)⟩

end Sys2Proof.Machine

/-! ## `10_state.md`: no byte of an earlier result can be read

Two engines that show the host the same thing differ in the buffer behind the read gate only (`sameToHost_iff`), so every access but
a write to CMD commutes with the difference (`State.SameToHost.map`), and a command overwrites what it shows
(`finish_sameToHost`). -/

namespace Sys2Proof.Machine

/-- Two engines end a step or a run alike: in states that show the host the same thing, or refused for the same reason. -/
inductive SameOutcome : Host.Outcome State Fault Refusal → Host.Outcome State Fault Refusal → Prop
  | next {t v : State} (h : t.SameToHost v) : SameOutcome (.next t) (.next v)
  | refused (r : Refusal) : SameOutcome (.refused r) (.refused r)

theorem sameToHost_iff {s u : State} :
    s.SameToHost u ↔ ∃ m, u = s.setOutBuf m ∧ ∀ j, j < s.outlen.toNat → Cells.read s.outBuf j = Cells.read m j := by
  constructor
  · rintro ⟨hcfg, hstatus, hinlen, houtlen, hkcnt, hkey, hin, hpending, hreplies, hout⟩
    refine ⟨u.outBuf, ?_, fun j hj => ?_⟩
    · cases s
      cases u
      simp_all [State.setOutBuf]
    · rw [← outByteAt_of_lt hj, hout j, outByteAt_of_lt (by rwa [← houtlen])]
  · rintro ⟨m, rfl, hm⟩
    refine ⟨rfl, rfl, rfl, rfl, rfl, rfl, rfl, rfl, rfl, fun j => ?_⟩
    rcases lt_or_ge j s.outlen.toNat with hj | hj
    · rw [outByteAt_of_lt hj, outByteAt_of_lt (s := s.setOutBuf m) hj, hm j hj]
      rfl
    · rw [outByteAt_of_le hj, outByteAt_of_le (s := s.setOutBuf m) hj]

/-- An update that neither reads nor writes OUT and OUTLEN does the same to both engines. -/
theorem State.SameToHost.map {s u : State} (h : s.SameToHost u) (f : State → State)
    (hf : ∀ s m, f (s.setOutBuf m) = (f s).setOutBuf m) (hlen : (f s).outlen = s.outlen) (hout : (f s).outBuf = s.outBuf) :
    (f s).SameToHost (f u) := by
  obtain ⟨m, rfl, hm⟩ := sameToHost_iff.1 h
  exact sameToHost_iff.2 ⟨m, hf s m, by rwa [hlen, hout]⟩

theorem State.SameToHost.setPending {s u : State} (h : s.SameToHost u) (as : List Access) :
    (s.setPending as).SameToHost (u.setPending as) :=
  h.map (·.setPending as) (fun _ _ => rfl) rfl rfl

/-- `10_state.md` R32: a command ends alike in both engines, for OUT shows bytes of its own result only. -/
theorem finish_sameToHost {s u : State} (hs : s.Inv) (hu : u.Inv) (h : s.SameToHost u) (failed : Option Cause) (o : List Byte) :
    (finish failed o s).SameToHost (finish failed o u) := by
  obtain ⟨hstatus, houtlen, hout⟩ := finish_shows_same hs hu failed o
  obtain ⟨m, rfl, -⟩ := sameToHost_iff.1 h
  exact ⟨by simp, hstatus, by simp, houtlen, by simp, by simp, by simp, by simp, by simp, hout⟩

theorem issue_sameOutcome {s u : State} (hs : s.Inv) (hu : u.Inv) (h : s.SameToHost u) (w : Word) :
    SameOutcome (issue w s) (issue w u) := by
  rcases hw : decode w with r | i
  · rw [issue_error hw, issue_error hw]
    exact .next (finish_sameToHost hs hu h (some .illegalCmd) [])
  · have hend := finish_sameToHost hs hu h
    obtain ⟨hcfg, -, hinlen, -, hkcnt, hkey, hin, -⟩ := h
    rw [issue_ok hw, issue_ok hw, exec_eq, exec_eq, checkOf_congr i hcfg hinlen hkcnt hkey, resultOf_congr i hcfg hinlen hin hkey]
    exact .next (hend _ _)

theorem answer_sameOutcome {s u : State} (h : s.SameToHost u) (why : Refusal) (r : Option Reply) :
    SameOutcome (answer s why r) (answer u why r) := by
  cases r with
  | none => exact .refused why
  | some v => exact .next (h.map (·.pushReply v) (fun _ _ => rfl) rfl rfl)

/-- A write to an element that exists when `c` holds. -/
theorem store_sameOutcome {t v : State} (h : t.SameToHost v) (why : Refusal) (c : Prop) [Decidable c] :
    SameOutcome (store why (if c then some t else none)) (store why (if c then some v else none)) := by
  by_cases hc : c
  · rw [if_pos hc, if_pos hc]
    exact .next h
  · rw [if_neg hc, if_neg hc]
    exact .refused why

theorem serve_sameOutcome {s u : State} (hs : s.Inv) (hu : u.Inv) (h : s.SameToHost u) (a : Access) :
    SameOutcome (serve a s) (serve a u) := by
  obtain ⟨m, rfl, -⟩ := sameToHost_iff.1 h
  cases a with
  | rdCsr n => exact answer_sameOutcome h _ ((readCsr s n).map .word)
  | rdKey i => exact answer_sameOutcome h _ ((readKey s i).map .slot)
  | rdIn j => exact answer_sameOutcome h _ ((readIn s j).map .byte)
  | rdOut j =>
    have hread : readOut (s.setOutBuf m) j = readOut s j := by
      obtain ⟨-, -, -, -, -, -, -, -, -, hout⟩ := h
      rw [readOut, readOut, ← hout j]
      rfl
    rw [serve, serve, hread]
    exact answer_sameOutcome h _ _
  | wrCsr n v =>
    match n with
    | 0 => exact issue_sameOutcome hs hu h v
    | 1 | 3 => exact .next h
    | 2 => exact .next (h.map (·.setInlen v) (fun _ _ => rfl) rfl rfl)
    | 4 => exact .next (h.map (·.setKcnt v) (fun _ _ => rfl) rfl rfl)
    | n + 5 => exact .refused _
  | wrKey i v =>
    exact store_sameOutcome (h.map (fun s => s.setKey (Cells.write s.key i v)) (fun _ _ => rfl) rfl rfl) _ (i < s.cfg.nmax)
  | wrIn j v =>
    exact store_sameOutcome (h.map (fun s => s.setInBuf (Cells.write s.inBuf j v)) (fun _ _ => rfl) rfl rfl) _ (j < s.cfg.lmax)
  | wrOut j v => exact store_sameOutcome h _ (j < s.cfg.lmax)
  | otherWidth sp index bits => exact .refused _
  | otherSpace id index => exact .refused _
  | reset => exact .next (sameToHost_iff.2 ⟨[], rfl, fun _ _ => rfl⟩)

theorem step_sameOutcome {s u : State} (hs : s.Inv) (hu : u.Inv) (h : s.SameToHost u) : SameOutcome (step s) (step u) := by
  have hpending : s.pending = u.pending := by
    obtain ⟨-, -, -, -, -, -, -, hpending, -⟩ := h
    exact hpending
  rcases hp : s.pending with _ | ⟨a, rest⟩
  · rw [step_nil hp, step_nil (hpending ▸ hp)]
    exact .next h
  · rw [step_cons hp, step_cons (hpending ▸ hp)]
    exact serve_sameOutcome (s := s.setPending rest) (u := u.setPending rest) hs hu (h.setPending rest) a

theorem run_sameOutcome {s u : State} (hs : s.Inv) (hu : u.Inv) (h : s.SameToHost u) (n : Nat) :
    SameOutcome (run n s) (run n u) := by
  induction n generalizing s u with
  | zero => exact .next h
  | succ n ih =>
    rw [run_succ, run_succ]
    have hstep := step_sameOutcome hs hu h
    generalize hx : step s = x, hy : step u = y at hstep ⊢
    cases hstep with
    | next h => exact ih (step_inv hs hx) (step_inv hu hy) h
    | refused r => exact .refused r

/-- Settles O53: `run_sameOutcome`. -/
theorem staleOutputIsInvisible : Obligations.StaleOutputIsInvisible := by
  unfold Obligations.StaleOutputIsInvisible
  intro n s u hs hu h
  have hrun := run_sameOutcome hs hu h n
  generalize run n s = x, run n u = y at hrun ⊢
  cases hrun with
  | @next t v h =>
    refine ⟨fun t' ht => ⟨v, rfl, ?_⟩, nofun⟩
    rwa [← Host.Outcome.next.inj ht]
  | refused r => exact ⟨nofun, fun r' hr => hr⟩

end Sys2Proof.Machine

/-! ## `30_encoding.md`: the pseudo-operations -/

namespace Sys2Proof.Machine

open Sys2Proof.Claims

/-! ### LDIN and LDKEYS -/

/-- A run goes on from where its first part ended. -/
theorem run_add {s t : State} {m : Nat} (h : run m s = .next t) (n : Nat) : run (m + n) s = run n t := by
  induction m generalizing s with
  | zero =>
    cases h
    rw [Nat.zero_add]
  | succ m ih =>
    rw [Nat.succ_add, run_succ]
    rw [run_succ] at h
    generalize step s = x at h ⊢
    cases x with
    | next u => exact ih h
    | fault f => exact nomatch f
    | refused r => exact nomatch h

/-- Writing a list of values to the elements of a file from index `at'` on. `file as m` is the engine whose file is `m` and which
has the accesses `as` to serve, `wr` the access that writes an element of the file. -/
theorem run_writes {w n : Nat} {file : List Access → Cells w → State} {wr : Nat → BitVec w → Access}
    (hstep : ∀ as m a v, a < n → step (file (wr a v :: as) m) = .next (file as (Cells.write m a v)))
    (vs : List (BitVec w)) {at' : Nat} (hfit : at' + vs.length ≤ n) {m : Cells w} (hm : Cells.wf n m = true)
    (rest : List Access) :
    ∃ m', run vs.length (file ((vs.zipIdx at').map (fun p => wr p.2 p.1) ++ rest) m) = .next (file rest m') ∧
      ∀ a, Cells.read m' a = if at' ≤ a then (vs[a - at']?).getD (Cells.read m a) else Cells.read m a := by
  induction vs generalizing at' m with
  | nil => exact ⟨m, rfl, fun a => by simp⟩
  | cons v vs ih =>
    rw [List.length_cons] at hfit
    obtain ⟨m', hrun, hread⟩ := ih (at' := at' + 1) (by omega) (Cells.wf_write (a := at') hm (by omega) v)
    refine ⟨m', ?_, fun a => ?_⟩
    · rw [List.length_cons, run_succ, List.zipIdx_cons, List.map_cons, List.cons_append, hstep _ _ _ _ (by omega)]
      exact hrun
    · rw [hread, Cells.read_write hm]
      rcases lt_trichotomy a at' with hlt | rfl | hgt
      · rw [if_neg (by omega), if_neg (by omega), if_neg (by omega)]
      · rw [if_neg (by omega), if_pos rfl, if_pos le_rfl, Nat.sub_self]
        rfl
      · rw [if_pos (by omega), if_neg (by omega), if_pos (by omega), show a - at' = a - (at' + 1) + 1 by omega,
          List.getElem?_cons_succ]

/-- A load: the writes of its values, and one access more. -/
theorem run_load {w n : Nat} {file : List Access → Cells w → State} {wr : Nat → BitVec w → Access}
    (hstep : ∀ as m a v, a < n → step (file (wr a v :: as) m) = .next (file as (Cells.write m a v)))
    {last : Access} {rest : List Access} {loaded : Cells w → State} (hlast : ∀ m, step (file (last :: rest) m) = .next (loaded m))
    (vs : List (BitVec w)) (hfit : vs.length ≤ n) {m : Cells w} (hm : Cells.wf n m = true) :
    ∃ m', run (vs.zipIdx.map (fun p => wr p.2 p.1) ++ [last]).length
        (file (vs.zipIdx.map (fun p => wr p.2 p.1) ++ [last] ++ rest) m) = .next (loaded m') ∧
      ∀ a, Cells.read m' a = (vs[a]?).getD (Cells.read m a) := by
  obtain ⟨m', hrun, hread⟩ := run_writes hstep vs (at' := 0) (by omega) hm (last :: rest)
  refine ⟨m', ?_, fun a => by simpa using hread a⟩
  have hlength : (vs.zipIdx.map (fun p => wr p.2 p.1) ++ [last]).length = vs.length + 1 := by simp
  rw [hlength, List.append_assoc, List.singleton_append, run_add hrun, run_succ, hlast]
  rfl

/-- Settles O54: `run_load` for IN and for KEY. -/
theorem loadsLeaveTheOperands : Obligations.LoadsLeaveTheOperands := by
  unfold Obligations.LoadsLeaveTheOperands
  refine ⟨fun s bs rest hs hfit hp => ?input, fun s ks rest hs hfit hp => ?keys⟩
  case input =>
    obtain ⟨-, -, hin, -⟩ := s.inv_iff.1 hs
    obtain ⟨m, hrun, hread⟩ := run_load (file := fun as m => (s.setPending as).setInBuf m) (wr := .wrIn)
      (fun as m j v hj => (step_cons rfl).trans (serve_wrIn_next_iff.2 ⟨hj, rfl⟩))
      (last := .wrCsr 2 (BitVec.ofNat 32 bs.length)) (rest := rest)
      (loaded := fun m => ((s.setPending rest).setInBuf m).setInlen (BitVec.ofNat 32 bs.length))
      (fun m => (step_cons rfl).trans (serve_wrInlen _ _)) bs hfit hin
    have hfile : s = (s.setPending (ldin bs ++ rest)).setInBuf s.inBuf := by
      rw [← hp]
      rfl
    exact ⟨m, (congrArg (run _) hfile).trans hrun, hread⟩
  case keys =>
    obtain ⟨-, hkey, -⟩ := s.inv_iff.1 hs
    obtain ⟨m, hrun, hread⟩ := run_load (file := fun as m => (s.setPending as).setKey m) (wr := .wrKey)
      (fun as m i v hi => (step_cons rfl).trans (serve_wrKey_next_iff.2 ⟨hi, rfl⟩))
      (last := .wrCsr 4 (BitVec.ofNat 32 ks.length)) (rest := rest)
      (loaded := fun m => ((s.setPending rest).setKey m).setKcnt (BitVec.ofNat 32 ks.length))
      (fun m => (step_cons rfl).trans (serve_wrKcnt _ _)) ks hfit hkey
    have hfile : s = (s.setPending (ldkeys ks ++ rest)).setKey s.key := by
      rw [← hp]
      rfl
    exact ⟨m, (congrArg (run _) hfile).trans hrun, hread⟩

/-! ### EXPECT -/

/-- `t` with the accesses `as` to serve, whose reads returned `rs`, newest first. -/
def withLists (t : State) (as : List Access) (rs : List Reply) : State := { t with pending := as, replies := rs }

/-- Access `a` is a read that returns `r`, whatever accesses are to come and whatever reads came before. -/
def Reads (t : State) (a : Access) (r : Reply) : Prop :=
  ∀ as rs, serve a (withLists t as rs) = .next (withLists t as (r :: rs))

/-- A list of reads returns what each of them returns. -/
theorem run_reads {t : State} {as : List Access} {rs : List Reply} (h : List.Forall₂ (Reads t) as rs) (rest : List Access)
    (q : List Reply) : run as.length (withLists t (as ++ rest) q) = .next (withLists t rest (rs.reverse ++ q)) := by
  induction h generalizing q with
  | nil => rfl
  | @cons a r as rs ha _ ih =>
    have hfirst : step (withLists t (a :: (as ++ rest)) q) = .next (withLists t (as ++ rest) (r :: q)) :=
      (step_cons rfl).trans (ha (as ++ rest) q)
    rw [List.length_cons, List.cons_append, run_succ, hfirst, List.reverse_cons, List.append_assoc]
    exact ih (r :: q)

theorem reads_status (t : State) : Reads t (.rdCsr 1) (.word t.status) := fun _ _ => rfl

theorem reads_outlen (t : State) : Reads t (.rdCsr 3) (.word t.outlen) := fun _ _ => rfl

theorem reads_out {t : State} {j : Nat} {b : Byte} (h : readOut t j = some b) : Reads t (.rdOut j) (.byte b) := by
  intro as rs
  have hsame : readOut (withLists t as rs) j = some b := h
  rw [serve, hsame]
  rfl

/-- `30_encoding.md` R81: the reads of EXPECT OK after a success. -/
theorem reads_expectOk {o : List Byte} {s t : State} (h : Succeeded o s t) :
    List.Forall₂ (Reads t) (expectOkReads o.length) (expectOkReplies o) := by
  obtain ⟨hstatus, houtlen, hfits, hread, -, -, -, -, -, hcfg, -⟩ := h
  have hlen : t.outlen = BitVec.ofNat 32 o.length := by rw [← houtlen, BitVec.ofNat_toNat, BitVec.setWidth_eq]
  have hout : List.Forall₂ (Reads t) ((List.range o.length).map .rdOut) (o.map .byte) := by
    refine List.forall₂_iff_get.2 ⟨by simp, fun j hj ho => ?_⟩
    have hjo : j < o.length := by simpa using ho
    have hbyte : readOut t j = some o[j] := by
      rw [hread j (by omega), List.getElem?_eq_getElem hjo, Option.getD_some]
    simpa using reads_out hbyte
  exact .cons (hstatus ▸ reads_status t) (.cons (hlen ▸ reads_outlen t) hout)

/-- Settles O55: the command's own step (`step_wrCmd_encode`), then its reads (`run_reads`). -/
theorem expectReadsReturnTheOutcome : Obligations.ExpectReadsReturnTheOutcome := by
  unfold Obligations.ExpectReadsReturnTheOutcome
  refine ⟨fun s i rest hp => step_wrCmd_encode hp, fun s t i o rest hp hstep ht => ?ok, fun s w code rest hp hstep => ?err,
    fun o => rfl, rfl, rfl, rfl, rfl⟩
  case ok =>
    have hreads := run_reads (reads_expectOk ht) rest t.replies
    obtain ⟨-, -, -, -, -, -, -, -, -, -, hpending, hreplies⟩ := ht
    have hlists : t = withLists t (expectOkReads o.length ++ rest) t.replies := by
      rw [← State.setPending_pending s (expectOkReads o.length ++ rest), ← hpending]
      rfl
    rw [← hlists, hreplies] at hreads
    rw [List.length_append, length_command, Nat.add_comm, run_succ, hstep]
    exact hreads
  case err =>
    have hreads : List.Forall₂ (Reads (failed code s)) expectErrReads (expectErrReplies code) :=
      .cons (reads_status _) (.cons (reads_outlen _) .nil)
    rw [Nat.add_comm, run_succ, hstep]
    exact run_reads hreads rest s.replies

end Sys2Proof.Machine

/-! ## `41_key_scheduler.md`, `42_bit_permuter.md`: which keys recovery fires for, SWP and XOR -/

namespace Sys2Proof.Machine

/-! ### The degenerate keys -/

/-- `41_key_scheduler.md` R101: 256 divides a square exactly when 16 divides the key. -/
theorem sq8_eq_zero_iff (k : Byte) : sq8 k = 0 ↔ k.toNat % 16 = 0 := by
  rw [← BitVec.toNat_inj, toNat_sq8]
  change k.toNat * k.toNat % 256 = 0 ↔ _
  rw [← Nat.dvd_iff_mod_eq_zero, ← Nat.dvd_iff_mod_eq_zero, ← sq]
  exact Nat.pow_dvd_pow_iff (a := 16) two_ne_zero

/-- `41_key_scheduler.md` R101: the square roots of 1 modulo 256, found among the 256 keys. -/
theorem sq8_eq_one_iff (k : Byte) : sq8 k = 1 ↔ k = 1 ∨ k = 127 ∨ k = 129 ∨ k = 255 := by
  revert k
  decide

/-- `41_key_scheduler.md` R102: ADVANCE takes a byte of the step, whatever it is, exactly when the square is 0 or 1. -/
theorem recovers_iff (k : Byte) : (∀ x y, advance k x y .e = x ∧ advance k x y .d = y) ↔ sq8 k = 0 ∨ sq8 k = 1 := by
  refine ⟨fun h => ?_, fun h x y => ⟨advance_recover h x y .e, advance_recover h x y .d⟩⟩
  by_contra hsquare
  obtain ⟨hzero, -⟩ := h 0 0
  obtain ⟨hone, -⟩ := h 1 0
  rw [advance_square hsquare] at hzero hone
  exact absurd (hzero.symm.trans hone) (by decide)

theorem sq8_eq_mul (k : Byte) : sq8 k = k * k := BitVec.eq_of_toNat_eq (by rw [toNat_sq8, BitVec.toNat_mul])

/-- `41_key_scheduler.md` R101: a key and its complement to 256 have one square. -/
theorem sq8_neg (k : Byte) : sq8 (-k) = sq8 k := by
  rw [sq8_eq_mul, sq8_eq_mul, BitVec.neg_mul_neg]

/-- `41_key_scheduler.md` R101: adding 128 adds a multiple of 256 to the square. -/
theorem sq8_ofNat_add_128 (k : Nat) : sq8 (BitVec.ofNat 8 (k + 128)) = sq8 (BitVec.ofNat 8 k) := by
  apply BitVec.eq_of_toNat_eq
  have hsquare : (k + 128) * (k + 128) = k * k + 256 * (k + 64) := by ring
  rw [toNat_sq8, toNat_sq8, BitVec.toNat_ofNat, BitVec.toNat_ofNat, ← Nat.mul_mod, ← Nat.mul_mod, hsquare,
    Nat.add_mul_mod_self_left]

/-- Settles O2: the two square roots' lists, and the symmetries of squaring. -/
theorem degenerateKeysExactly : Obligations.DegenerateKeysExactly := by
  unfold Obligations.DegenerateKeysExactly
  refine ⟨sq8_eq_zero_iff, sq8_eq_one_iff, fun k => ?recovers, by decide, fun k => ?parity, fun k hk hle => ?complement,
    fun k _ => sq8_ofNat_add_128 k⟩
  case recovers => rw [recovers_iff, sq8_eq_zero_iff, sq8_eq_one_iff]
  case parity =>
    have hmod : k.toNat * k.toNat % 256 % 2 = k.toNat * k.toNat % 2 := Nat.mod_mod_of_dvd _ (by decide)
    rw [toNat_sq8, hmod, ← Nat.even_iff, ← Nat.even_iff, Nat.even_mul, or_self]
  case complement =>
    have hneg : BitVec.ofNat 8 (256 - k) = -BitVec.ofNat 8 k := by bv_omega
    rw [hneg, sq8_neg]

/-! ### SWP and XOR -/

/-- `42_bit_permuter.md` R113: SWP moves bits, and XOR works bit by bit. -/
theorem swp_xor (a b : Byte) : swp (a ^^^ b) = swp a ^^^ swp b := by
  apply BitVec.eq_of_getLsbD_eq
  intro i hi
  rw [BitVec.getLsbD_xor, getLsbD_swp _ hi, getLsbD_swp _ hi, getLsbD_swp _ hi, BitVec.getLsbD_xor]

/-- `42_bit_permuter.md` R114: of the 256 bytes 16 are fixed points. -/
theorem length_filter_swp_ne :
    ((List.range 256).filter (fun b => decide (swp (BitVec.ofNat 8 b) ≠ BitVec.ofNat 8 b))).length = 240 := by
  have hfixed : ((List.range 256).filter (fun b => decide (swp (BitVec.ofNat 8 b) = BitVec.ofNat 8 b))).length = 16 := by decide
  have hsplit := List.length_eq_length_filter_add (l := List.range 256) (fun b => decide (swp (BitVec.ofNat 8 b) = BitVec.ofNat 8 b))
  rw [hfixed, List.length_range] at hsplit
  simp only [decide_not, ne_eq]
  omega

/-- Settles O5: `swp_xor`, and the 256 bytes looked through for fixed points. -/
theorem swpIsLinear : Obligations.SwpIsLinear := by
  unfold Obligations.SwpIsLinear
  exact ⟨swp_xor, by decide, length_filter_swp_ne⟩

/-- A byte survives XOR with two bytes exactly when these are equal. -/
theorem xor_xor_eq_self_iff (p a b : Byte) : p ^^^ a ^^^ b = p ↔ a = b := by
  have hcancel := BitVec.xor_right_inj p (x := a ^^^ b) (y := 0#8)
  rwa [BitVec.xor_zero, ← BitVec.xor_assoc, BitVec.xor_eq_zero_iff] at hcancel

/-- Settles O6: each composition of two steps is XOR with `swp k` and `k`. -/
theorem variantCStepsInvertEachOther : Obligations.VariantCStepsInvertEachOther := by
  unfold Obligations.VariantCStepsInvertEachOther
  intro p k
  have hee : outByte .c (outByte .c p k .e) k .e = p ^^^ swp k ^^^ k := by
    simp only [outByte, swp_xor, swp_swp]
  have hdd : outByte .c (outByte .c p k .d) k .d = p ^^^ k ^^^ swp k := by
    simp only [outByte, swp_xor, swp_swp]
  refine ⟨outByte_outByte .c p k, ?_, hee, ?_, ?_⟩
  · simp [outByte]
  · rw [hee, xor_xor_eq_self_iff]
  · rw [hdd, xor_xor_eq_self_iff, eq_comm]

end Sys2Proof.Machine

/-! ## `43_single_key_engine.md`, `10_state.md`: prefixes, the end of variant A's keystream, the working registers -/

namespace Sys2Proof.Machine

/-- `43_single_key_engine.md` R132: the output up to byte j is determined by the input up to byte j. -/
theorem getElem?_stream_congr (v : Variant) (m : Mode) {s s' : List Byte} (seed : Byte) {j : Nat}
    (h : s.take (j + 1) = s'.take (j + 1)) : (stream v m s seed)[j]? = (stream v m s' seed)[j]? := by
  have hcut (p : List Byte) : (stream v m p seed)[j]? = (stream v m (p.take (j + 1)) seed)[j]? := by
    rw [stream_take, List.getElem?_take_of_lt (Nat.lt_succ_self j)]
  rw [hcut s, hcut s', h]

/-- Settles O8: `stream_take` and `getElem?_stream_congr`. -/
theorem streamPrefixProperty : Obligations.StreamPrefixProperty := by
  unfold Obligations.StreamPrefixProperty
  exact fun v m s s' seed => ⟨fun n _ => stream_take v m s seed n, fun j h => getElem?_stream_congr v m seed h⟩

/-- Settles O10: `iterate_sq8_of_even`, `iterate_sq8_of_odd`, and the listed walks run. -/
theorem variantAKeystreamFreezes : Obligations.VariantAKeystreamFreezes := by
  unfold Obligations.VariantAKeystreamFreezes
  exact ⟨fun _ _ => iterate_sq8_of_even, fun _ _ => iterate_sq8_of_odd, by decide⟩

/-! ### A lane -/

theorem laneStep_of_none {v : Variant} {m : Mode} {l : Lane} (h : l.input[l.pos]? = none) : laneStep v m l = l := by
  simp [laneStep, h]

theorem laneStep_of_some {v : Variant} {m : Mode} {l : Lane} {x : Byte} (h : l.input[l.pos]? = some x) :
    laneStep v m l = { l with
      k := nextKey v l.k x (outByte v x l.k m) m, x := x, y := outByte v x l.k m, pos := l.pos + 1,
      out := l.out ++ [outByte v x l.k m] } := by
  simp [laneStep, h]

/-- The lane of `stream v m s seed` after its first `n` steps. -/
def laneAfter (v : Variant) (m : Mode) (s : List Byte) (seed : Byte) (n : Nat) : Lane := (laneStep v m)^[n] (laneStart seed s)

section
variable (v : Variant) (m : Mode) (s : List Byte) (seed : Byte)

theorem laneAfter_succ (n : Nat) : laneAfter v m s seed (n + 1) = laneStep v m (laneAfter v m s seed n) :=
  Function.iterate_succ_apply' ..

/-- `10_state.md` R33: what a lane holds while it has bytes left or has just consumed its last. -/
theorem laneAfter_registers {n : Nat} (hn : n ≤ s.length) :
    (laneAfter v m s seed n).input = s ∧ (laneAfter v m s seed n).pos = n ∧
    (laneAfter v m s seed n).out = (stream v m s seed).take n ∧
    (n < s.length → (keySequence v m s seed)[n]? = some (laneAfter v m s seed n).k) := by
  induction n with
  | zero =>
    refine ⟨rfl, rfl, rfl, fun hpos => ?_⟩
    exact getElem?_keySequence_zero v m (List.length_pos_iff.1 hpos) seed
  | succ n ih =>
    obtain ⟨hinput, hpos, hout, hkey⟩ := ih (by omega)
    have hk := hkey hn
    have hx : s[n]? = some s[n] := List.getElem?_eq_getElem hn
    rw [laneAfter_succ, laneStep_of_some (by rw [hinput, hpos]; exact hx)]
    refine ⟨hinput, congrArg (· + 1) hpos, ?_, fun hlt => getElem?_keySequence_succ hk hx hlt⟩
    rw [hout, List.take_add_one, getElem?_stream hk hx]
    rfl

/-- `10_state.md` R33: X and Y after a step are the bytes of that step. -/
theorem laneAfter_succ_xy {n : Nat} (hn : n < s.length) :
    s[n]? = some (laneAfter v m s seed (n + 1)).x ∧ (stream v m s seed)[n]? = some (laneAfter v m s seed (n + 1)).y := by
  obtain ⟨hinput, hpos, -, hkey⟩ := laneAfter_registers v m s seed hn.le
  have hx : s[n]? = some s[n] := List.getElem?_eq_getElem hn
  rw [laneAfter_succ, laneStep_of_some (by rw [hinput, hpos]; exact hx)]
  exact ⟨hx, getElem?_stream (hkey hn) hx⟩

/-- `44_multi_key_engine.md` R143: a lane with no byte left does nothing. -/
theorem laneAfter_of_le {n : Nat} (hn : s.length ≤ n) : laneAfter v m s seed n = laneAfter v m s seed s.length := by
  obtain ⟨hinput, hpos, -, -⟩ := laneAfter_registers v m s seed le_rfl
  obtain ⟨d, rfl⟩ := Nat.exists_eq_add_of_le' hn
  have hdone : laneStep v m (laneAfter v m s seed s.length) = laneAfter v m s seed s.length :=
    laneStep_of_none (by rw [hinput, hpos]; exact List.getElem?_eq_none le_rfl)
  exact (Function.iterate_add_apply ..).trans (Function.iterate_fixed hdone d)

theorem laneAfter_input (n : Nat) : (laneAfter v m s seed n).input = s := by
  rcases le_total n s.length with hn | hn
  · exact (laneAfter_registers v m s seed hn).1
  · rw [laneAfter_of_le v m s seed hn]
    exact (laneAfter_registers v m s seed le_rfl).1

theorem laneAfter_pos (n : Nat) : (laneAfter v m s seed n).pos = min n s.length := by
  rcases le_total n s.length with hn | hn
  · obtain ⟨-, hpos, -⟩ := laneAfter_registers v m s seed hn
    rw [hpos, min_eq_left hn]
  · obtain ⟨-, hpos, -⟩ := laneAfter_registers v m s seed le_rfl
    rw [laneAfter_of_le v m s seed hn, hpos, min_eq_right hn]

theorem laneAfter_out (n : Nat) : (laneAfter v m s seed n).out = (stream v m s seed).take n := by
  rcases le_total n s.length with hn | hn
  · obtain ⟨-, -, hout, -⟩ := laneAfter_registers v m s seed hn
    exact hout
  · obtain ⟨-, -, hout, -⟩ := laneAfter_registers v m s seed le_rfl
    rw [laneAfter_of_le v m s seed hn, hout, List.take_of_length_le (by simp), List.take_of_length_le (by simpa)]

end

/-- Settles O13: `laneAfter_out` and `laneAfter_pos` for every n, the registers while there are bytes left. -/
theorem laneRegistersComputeTheStream : Obligations.LaneRegistersComputeTheStream := by
  unfold Obligations.LaneRegistersComputeTheStream
  intro v m s seed n
  refine ⟨laneAfter_out v m s seed n, laneAfter_pos v m s seed n, fun hn => ?_, laneAfter_succ_xy v m s seed⟩
  obtain ⟨-, -, -, hkey⟩ := laneAfter_registers v m s seed hn.le
  exact hkey hn

end Sys2Proof.Machine

/-! ## `44_multi_key_engine.md`: schedules, one lane, the dropped tail, what a byte depends on -/

namespace Sys2Proof.Machine

open Sys2Proof.Claims

/-! ### Schedules -/

/-- A schedule gives each lane its own number of steps, and the order between the lanes does not matter. -/
theorem getElem?_runLanes (m : Mode) (ls : List Lane) (schedule : List Nat) (i : Nat) :
    (runLanes m ls schedule)[i]? = ls[i]?.map (laneStep .c m)^[schedule.count i] := by
  induction schedule generalizing ls with
  | nil => simp [runLanes]
  | cons a schedule ih =>
    have hfirst : runLanes m ls (a :: schedule) = runLanes m (ls.modify a (laneStep .c m)) schedule := rfl
    rw [hfirst, ih, List.getElem?_modify, List.count_cons]
    by_cases ha : a = i
    · subst ha
      cases ls[a]? <;> simp
    · simp [ha]

/-- Lane i of an XM command after a schedule. -/
theorem getElem?_runLanes_lanesStart (p ks : List Byte) (m : Mode) (schedule : List Nat) (i : Nat) :
    (runLanes m (lanesStart p ks) schedule)[i]?
      = ks[i]?.map (fun k => laneAfter .c m (deal p ks.length i) k (schedule.count i)) := by
  rw [getElem?_runLanes]
  simp [lanesStart, List.getElem?_zipIdx, Option.map_map, Function.comp_def, laneAfter]

/-- `44_multi_key_engine.md` R148: the lanes are done when each has had as many steps as it has bytes. -/
theorem lanesDone_runLanes_iff (p ks : List Byte) (m : Mode) (schedule : List Nat) :
    lanesDone (runLanes m (lanesStart p ks) schedule) = true ↔
      ∀ i, i < ks.length → (deal p ks.length i).length ≤ schedule.count i := by
  have hdone (i : Nat) (k : Byte) :
      (laneAfter .c m (deal p ks.length i) k (schedule.count i)).input.length
          ≤ (laneAfter .c m (deal p ks.length i) k (schedule.count i)).pos
        ↔ (deal p ks.length i).length ≤ schedule.count i := by
    rw [laneAfter_input, laneAfter_pos, le_min_iff, and_iff_left le_rfl]
  simp only [lanesDone, List.all_eq_true, decide_eq_true_eq]
  constructor
  · intro h i hi
    have hlane := getElem?_runLanes_lanesStart p ks m schedule i
    rw [List.getElem?_eq_getElem hi, Option.map_some] at hlane
    exact (hdone i _).1 (h _ (List.mem_of_getElem? hlane))
  · intro h l hl
    obtain ⟨i, hi⟩ := List.mem_iff_getElem?.1 hl
    rw [getElem?_runLanes_lanesStart] at hi
    obtain ⟨k, hk, rfl⟩ := Option.map_eq_some_iff.1 hi
    exact (hdone i k).2 (h i (List.getElem?_eq_some_iff.1 hk).1)

/-- `44_multi_key_engine.md` R143: lane outputs once the lanes are done. -/
theorem map_out_runLanes {p ks : List Byte} (m : Mode) {schedule : List Nat}
    (h : ∀ i, i < ks.length → (deal p ks.length i).length ≤ schedule.count i) :
    (runLanes m (lanesStart p ks) schedule).map Lane.out = laneOutputs p ks m := by
  apply List.ext_getElem?
  intro i
  rw [List.getElem?_map, getElem?_runLanes_lanesStart, getElem?_laneOutputs, Option.map_map]
  rcases hk : ks[i]? with _ | k
  · rfl
  · have hi : i < ks.length := (List.getElem?_eq_some_iff.1 hk).1
    rw [Option.map_some, Option.map_some, Function.comp_apply, laneAfter_out, List.take_of_length_le]
    · rfl
    · simpa using h i hi

/-- Settles O20: lane i is `getElem?_laneOutputs`; a schedule matters by its number of steps for each lane alone. -/
theorem laneScheduleIsUnobservable : Obligations.LaneScheduleIsUnobservable := by
  unfold Obligations.LaneScheduleIsUnobservable
  refine ⟨fun p ks m i k hk => ?_, fun p ks m schedule => ?_⟩
  · have hlane : (laneOutputs p ks m)[i]? = some (xc (deal p ks.length i) k m) := by
      rw [getElem?_laneOutputs, hk, Option.map_some]
    exact ⟨hlane, fun hempty => by rw [hlane, hempty]; rfl⟩
  · rw [lanesDone_runLanes_iff]
    exact ⟨map_out_runLanes m, id⟩

/-! ### The dropped tail, one lane -/

/-- Settles O16: DROP on any input is KEEP on its whole rounds, and both policies put the same lane byte at the same position. -/
theorem droppedTailHasNoEffect : Obligations.DroppedTailHasNoEffect := by
  unfold Obligations.DroppedTailHasNoEffect
  refine fun p ks m hks => ⟨xm_drop_eq_xm_keep_take hks p m, ?_⟩
  have hle : p.length / ks.length * ks.length ≤ p.length := Nat.div_mul_le_self _ _
  apply List.ext_getElem?
  intro j
  rw [List.getElem?_take]
  split
  next hj => rw [getElem?_xm hks m (t := .drop) hj, getElem?_xm_keep hks]
  next hj =>
    rw [List.getElem?_eq_none_iff, length_xm hks]
    exact not_lt.1 hj

/-- `44_multi_key_engine.md` R153: the only sub-stream is the input. -/
theorem deal_one_zero (p : List Byte) : deal p 1 0 = p := by
  apply List.ext_getElem?
  intro r
  rw [getElem?_deal p Nat.one_pos, Nat.zero_add, Nat.mul_one]

theorem xmLength_one (t : TailPolicy) (l : Nat) : xmLength t l 1 = l := by
  cases t <;> simp [xmLength]

/-- `44_multi_key_engine.md` R153: with one lane, position j of the result is byte j of that lane. -/
theorem xm_singleton (t : TailPolicy) (p : List Byte) (k : Byte) (m : Mode) : xm t p [k] m = xc p k m := by
  have hlen : (xm t p [k] m).length = p.length := (length_xm (by simp) t p m).trans (xmLength_one t _)
  apply List.ext_getElem?
  intro j
  rcases lt_or_ge j p.length with hj | hj
  · rw [getElem?_xm (by simp) m (hj.trans_eq (xmLength_one t _).symm), laneByte_laneOutputs]
    simp [Nat.mod_one, deal_one_zero]
  · rw [List.getElem?_eq_none (by omega), List.getElem?_eq_none (by simpa)]

/-- Settles O18: `deal_one_zero`, and `xm_singleton` under both policies. -/
theorem oneLaneIsVariantC : Obligations.OneLaneIsVariantC := by
  unfold Obligations.OneLaneIsVariantC
  exact fun t p k m => ⟨deal_one_zero p, xm_singleton t p k m⟩

/-! ### What an output byte depends on -/

/-- With no lane there is no output. -/
@[simp] theorem xm_no_keys (t : TailPolicy) (p : List Byte) (m : Mode) : xm t p [] m = [] := by
  simp [xm, laneOutputs, weave, weaveRound]

/-- Settles O19: byte j is a byte of lane j mod N, which depends on the lane's key and the lane's input up to there. -/
theorem outputByteDependsOnItsLaneOnly : Obligations.OutputByteDependsOnItsLaneOnly := by
  unfold Obligations.OutputByteDependsOnItsLaneOnly
  intro t t' p p' ks ks' m j hlen hj hj' hkey hin
  have hks : ks ≠ [] := by
    rintro rfl
    simp at hj
  have hks' : ks' ≠ [] := by
    rintro rfl
    simp at hj'
  have hlane : j % ks.length < ks.length := Nat.mod_lt j (List.length_pos_iff.2 hks)
  have hprefix : (deal p ks.length (j % ks.length)).take (j / ks.length + 1)
      = (deal p' ks.length (j % ks.length)).take (j / ks.length + 1) := by
    apply List.ext_getElem?
    intro r
    rw [List.getElem?_take, List.getElem?_take]
    split
    next hr =>
      have hle : j % ks.length + r * ks.length ≤ j := by
        calc j % ks.length + r * ks.length
            ≤ j % ks.length + j / ks.length * ks.length := by gcongr; omega
          _ = j := Nat.mod_add_div' j ks.length
      rw [getElem?_deal p hlane, getElem?_deal p' hlane, hin _ hle (position_mod hlane r)]
    next => rfl
  rw [length_xm hks] at hj
  rw [length_xm hks'] at hj'
  rw [getElem?_xm hks m hj, getElem?_xm hks' m hj', laneByte_laneOutputs, laneByte_laneOutputs, ← hlen, hkey]
  exact congrArg _ (funext fun k => getElem?_stream_congr .c m k hprefix)

end Sys2Proof.Machine

/-! ## `43_single_key_engine.md`, `44_multi_key_engine.md`: the commands XB, XC, XM

The frames are `singleKeyCommand_of_exec` and, for XM, `multiKeyCommand`; what is left is the corner cases and the examples. -/

namespace Sys2Proof.Machine

open Sys2Proof.Claims

/-! ### XB and XC -/

theorem xb_command_e (seed : Imm16) : SingleKeyCommand (.xbE seed) seed (xb · · .e) :=
  singleKeyCommand_of_exec (fun _ => rfl) (length_stream .b .e)

theorem xb_command_d (seed : Imm16) : SingleKeyCommand (.xbD seed) seed (xb · · .d) :=
  singleKeyCommand_of_exec (fun _ => rfl) (length_stream .b .d)

theorem xc_command_e (seed : Imm16) : SingleKeyCommand (.xcE seed) seed (xc · · .e) :=
  singleKeyCommand_of_exec (fun _ => rfl) (length_stream .c .e)

theorem xc_command_d (seed : Imm16) : SingleKeyCommand (.xcD seed) seed (xc · · .d) :=
  singleKeyCommand_of_exec (fun _ => rfl) (length_stream .c .d)

/-- `43_single_key_engine.md` R120, R123: the second key of a run of XB. -/
theorem keySequence_b_one (m : Mode) (x x' : Byte) (s : List Byte) (seed : Byte) :
    (keySequence .b m (x :: x' :: s) seed)[1]? = some (advance seed x (x ^^^ seed) m) := rfl

/-- `43_single_key_engine.md` R123: after a seed whose square is 0 or 1 both modes take the plaintext byte as the second key. -/
theorem keySequence_b_recovers {seed : Byte} (h : sq8 seed = 0 ∨ sq8 seed = 1) (x x' : Byte) (s : List Byte) :
    (keySequence .b .e (x :: x' :: s) seed)[1]? = some x ∧
    (keySequence .b .d (x :: x' :: s) seed)[1]? = some (x ^^^ seed) := by
  rw [keySequence_b_one, keySequence_b_one, advance_recover h, advance_recover h]
  exact ⟨rfl, rfl⟩

/-- Settles O39: the words, the frames, recovery after a degenerate seed, and the examples run. -/
theorem xbEffect : Obligations.XbEffect := by
  unfold Obligations.XbEffect
  have hseeds : ∀ seed ∈ ([0, 255, 127, 129, 1] : List Byte), sq8 seed = 0 ∨ sq8 seed = 1 := by decide
  refine ⟨encoded_of_encode (m := 0) (o := 2) fun _ => rfl, encoded_of_encode (m := 1) (o := 2) fun _ => rfl, illegalWordsFail,
    xb_command_e, xb_command_d, fun _ _ _ => rfl, fun _ _ _ _ => rfl,
    fun x x' s m => ⟨congrArg some BitVec.xor_zero, fun seed hseed => keySequence_b_recovers (hseeds seed hseed) x x' s⟩,
    keySequence_stream .b, by decide, by decide, by decide⟩

/-- Settles O40: the words, the frames, and the examples run; under key 0 a step is SWP. -/
theorem xcEffect : Obligations.XcEffect := by
  unfold Obligations.XcEffect
  exact ⟨encoded_of_encode (m := 0) (o := 3) fun _ => rfl, encoded_of_encode (m := 1) (o := 3) fun _ => rfl, illegalWordsFail,
    xc_command_e, xc_command_d, fun _ _ => ⟨rfl, rfl⟩, fun _ _ _ _ => rfl,
    fun x s => ⟨congrArg some BitVec.xor_zero, congrArg (some ∘ swp) BitVec.xor_zero⟩, by decide, by decide⟩

/-! ### XM -/

theorem keySet_eq_keys (s : State) (n : Nat) : keySet s n = keys s n := by
  simp [keySet, keySlots, keys, keyByte_eq]

/-- The frame of `44_multi_key_engine.md` R149, for a command that runs XM in one of its modes. -/
theorem multiKeyCommand_of_exec {i : Instr} {n : Imm16} {m : Mode} (hi : i ∈ laneCommands n)
    (hresult : ∀ s, resultOf i s = xm s.cfg.tail (inputSeq s) (keySet s n.toNat) m) : MultiKeyCommand i n m := by
  intro s hs
  have hcheck := checkOf_laneCommand hi s
  refine ⟨fun hlen => ?_, fun hlen hcount => ?_, fun hlen hpos hmax hcnt => ⟨fun hkey => ?_, fun hkey => ?_⟩⟩
  · exact exec_of_checkOf_some (hcheck.trans (multiKeyCheck_of_lenRange n hlen))
  · exact exec_of_checkOf_some (hcheck.trans (multiKeyCheck_of_keyCount hlen hcount))
  · exact exec_of_checkOf_some (hcheck.trans (multiKeyCheck_of_keyRange hlen hpos hmax hcnt hkey))
  · have hvalid := hcheck.trans (multiKeyCheck_of_valid hlen hpos hmax hcnt hkey)
    refine ⟨_, exec_of_checkOf_none hvalid, ?_⟩
    rw [← keySet_eq_keys, ← hresult]
    exact succeeded_complete hs hlen (length_resultOf_le hvalid)

/-- `44_multi_key_engine.md` R149: with fewer bytes than lanes there is no whole round. -/
theorem xm_of_length_lt {p ks : List Byte} (m : Mode) (h : p.length < ks.length) :
    xm .drop p ks m = [] ∧ (xm .keep p ks m).length = p.length := by
  have hks : ks ≠ [] := List.ne_nil_of_length_pos (by omega)
  refine ⟨List.eq_nil_of_length_eq_zero ?_, length_xm hks .keep p m⟩
  rw [length_xm hks, xmLength, Nat.div_eq_of_lt h, Nat.zero_mul]

theorem xm_nil (t : TailPolicy) {ks : List Byte} (hks : ks ≠ []) (m : Mode) : xm t [] ks m = [] := by
  refine List.eq_nil_of_length_eq_zero (Nat.le_zero.1 ?_)
  rw [length_xm hks]
  exact xmLength_le t 0 ks.length

/-- Settles O41: the words, the frames, the corner cases, and the examples run. -/
theorem xmEffect : Obligations.XmEffect := by
  unfold Obligations.XmEffect
  refine ⟨encoded_of_encode (m := 0) (o := 4) fun _ => rfl, encoded_of_encode (m := 1) (o := 4) fun _ => rfl,
    fun n => multiKeyCommand_of_exec (mem_laneCommands.2 (.inl rfl)) fun _ => rfl,
    fun n => multiKeyCommand_of_exec (mem_laneCommands.2 (.inr rfl)) fun _ => rfl, illegalWordsFail,
    fun t p ks m hks => ⟨?empty, xm_of_length_lt m, ?single⟩, ?examples, by decide, by decide, by decide⟩
  case empty =>
    rintro rfl
    exact xm_nil t hks m
  case single =>
    rintro k rfl
    exact xm_singleton t p k m
  case examples =>
    intro t
    cases t <;> decide

end Sys2Proof.Machine

/-! ## `70_reset_and_hazards.md`: encrypt, copy OUT to IN, decrypt

The decrypting command reads as its input the result of the encrypting one (`inputSeq_of_copied_output`), so its own result is what
the round trip of the streams and of XM says (`exec_shows_input`). -/

namespace Sys2Proof.Machine

open Sys2Proof.Claims

/-- `70_reset_and_hazards.md` R188: an IN that holds what OUT showed is an input that equals the result. -/
theorem inputSeq_of_copied_output {s u : State} {o : List Byte} (hs : s.Inv) (ho : o.length ≤ s.inlen.toNat)
    (hlen : u.inlen = (complete o s).outlen)
    (hcopy : ∀ j, j < (complete o s).outlen.toNat → Cells.read u.inBuf j = outByteAt (complete o s) j) : inputSeq u = o := by
  have houtlen := toNat_outlen_complete ho
  apply List.ext_getElem?
  intro j
  rw [getElem?_inputSeq, hlen]
  split
  next hj =>
    have hjo : j < o.length := houtlen ▸ hj
    rw [hcopy j hj, outByteAt_complete hs, ← complete_outlen s o, if_pos hj, List.getElem?_eq_getElem hjo, Option.getD_some]
  next hj => rw [List.getElem?_eq_none (by omega)]

/-- A command that passes its checks and whose result is the first `l` bytes of another input shows those bytes. -/
theorem exec_shows_input {i : Instr} {s u : State} {l : Nat} (hu : u.Inv) (hcheck : checkOf i u = none)
    (hl : l ≤ s.inlen.toNat) (hresult : resultOf i u = (inputSeq s).take l) :
    ∃ v, exec i u = .next v ∧ v.status = 1 ∧ v.outlen.toNat = l ∧
      ∀ j, j < l → readOut v j = some (Cells.read s.inBuf j) := by
  have hlength : (resultOf i u).length = l := by rw [hresult, List.length_take_of_le (by rwa [length_inputSeq])]
  have hle := length_resultOf_le hcheck
  obtain ⟨hstatus, houtlen, hfits, hread, -⟩ := succeeded_complete hu (inlen_le_of_checkOf_none hcheck) hle
  refine ⟨_, exec_of_checkOf_none hcheck, hstatus, houtlen.trans hlength, fun j hj => ?_⟩
  rw [hread j (by omega), hresult, List.getElem?_take_of_lt hj, getElem?_inputSeq, if_pos (by omega)]
  rfl

/-- The commands of `70_reset_and_hazards.md` R188 with the commands that undo them. -/
theorem resultOf_undoes {k : Imm16} {i i' : Instr}
    (h : (i, i') ∈ [(Instr.xa k, Instr.xa k), (.xbE k, .xbD k), (.xcE k, .xcD k)]) :
    i ∈ seedCommands k ∧ i' ∈ seedCommands k ∧ ∀ s u, inputSeq u = resultOf i s → resultOf i' u = inputSeq s := by
  simp only [List.mem_cons, Prod.mk.injEq, List.not_mem_nil, or_false] at h
  obtain ⟨rfl, rfl⟩ | ⟨rfl, rfl⟩ | ⟨rfl, rfl⟩ := h
  · refine ⟨by simp [seedCommands], by simp [seedCommands], fun s u hin => ?_⟩
    exact (congrArg (xa · _) hin).trans (xa_xa _ _)
  · refine ⟨by simp [seedCommands], by simp [seedCommands], fun s u hin => ?_⟩
    exact (congrArg (xb · _ .d) hin).trans (stream_stream .b _ _)
  · refine ⟨by simp [seedCommands], by simp [seedCommands], fun s u hin => ?_⟩
    exact (congrArg (xc · _ .d) hin).trans (xc_xc _ _)

/-- Settles O45: the second command has the first one's result as its input, and undoes it. -/
theorem machineSingleKeyRoundTrip : Obligations.MachineSingleKeyRoundTrip := by
  unfold Obligations.MachineSingleKeyRoundTrip
  rintro k s t u hs hu hlen hkey ⟨i, i'⟩ hpair ht hcfg hinlen hcopy
  obtain ⟨hi, hi', hundo⟩ := resultOf_undoes hpair
  have hresult := length_resultOf_seedCommand hi s
  have hcheck : checkOf i s = none := (checkOf_seedCommand hi s).trans (singleKeyCheck_of_valid hlen hkey)
  obtain rfl : complete (resultOf i s) s = t := Host.Outcome.next.inj ((exec_of_checkOf_none hcheck).symm.trans ht)
  have hin := inputSeq_of_copied_output hs hresult.le hinlen hcopy
  have hinlen' : u.inlen = s.inlen := by
    apply BitVec.eq_of_toNat_eq
    rw [hinlen, toNat_outlen_complete hresult.le, hresult]
  have hcheck' : checkOf i' u = none :=
    (checkOf_seedCommand hi' u).trans (singleKeyCheck_of_valid (by rwa [hinlen', hcfg]) hkey)
  obtain ⟨v, hv, hstatus, houtlen, hread⟩ := exec_shows_input hu hcheck' le_rfl
    ((hundo s u hin).trans (List.take_of_length_le (length_inputSeq s).le).symm)
  exact ⟨v, hv, hstatus, BitVec.eq_of_toNat_eq houtlen, hread⟩

/-- `44_multi_key_engine.md` R152 for either policy: XM in mode D gives back as many bytes as XM makes. -/
theorem xm_xm {ks : List Byte} (hks : ks ≠ []) (t : TailPolicy) (p : List Byte) :
    xm t (xm t p ks .e) ks .d = p.take (xmLength t p.length ks.length) := by
  cases t with
  | drop => exact xm_drop_xm_drop hks p
  | keep => exact (xm_keep_xm_keep hks p).trans (List.take_length (l := p)).symm

/-- Settles O46: as for the single-key commands, with `xm_xm`. -/
theorem machineMultiKeyRoundTrip : Obligations.MachineMultiKeyRoundTrip := by
  unfold Obligations.MachineMultiKeyRoundTrip
  intro n s t u hs hu hcheck ht hcfg hkcnt hkey hinlen hcopy
  obtain ⟨hlen, hpos, hmax, hcnt, hrange⟩ := multiKeyCheck_eq_none_iff.1 hcheck
  have hle : (resultOf (.xmE n) s).length ≤ s.inlen.toNat := length_resultOf_le hcheck
  obtain rfl : complete (resultOf (.xmE n) s) s = t :=
    Host.Outcome.next.inj ((exec_of_checkOf_none (i := .xmE n) hcheck).symm.trans ht)
  have hin := inputSeq_of_copied_output hs hle hinlen hcopy
  have hshorter : u.inlen.toNat ≤ s.inlen.toNat := by rwa [hinlen, toNat_outlen_complete hle]
  have hcheck' : multiKeyCheck n u = none := multiKeyCheck_eq_none_iff.2
    ⟨by rw [hcfg]; omega, hpos, by rwa [hcfg], by rwa [hkcnt], fun i hi => by rw [hkey i hi]; exact hrange i hi⟩
  have hkeys : keySet u n.toNat = keySet s n.toNat := by rw [keySet, keySet, keySlots_eq_of_reads hkey]
  have hne : keySet s n.toNat ≠ [] := List.ne_nil_of_length_pos (by rwa [length_keySet])
  refine exec_shows_input (i := .xmD n) hu hcheck' (xmLength_le _ _ _) ?_
  calc resultOf (.xmD n) u
      = xm s.cfg.tail (xm s.cfg.tail (inputSeq s) (keySet s n.toNat) .e) (keySet s n.toNat) .d := by
        rw [resultOf, hin, hkeys, hcfg, resultOf]
    _ = (inputSeq s).take (xmLength s.cfg.tail s.inlen.toNat n.toNat) := by
        rw [xm_xm hne, length_inputSeq, length_keySet]

end Sys2Proof.Machine

/-! ## `40_codec_reference.md`: the host-side codec, and the interleave through hex text

Every byte is two digits, so byte j of a sequence stands at digit 2 * j of its hex text (`drop_bytesToHex`), and reading the text back
undoes the writing (`hexToBytes_bytesToHex`). A round of the walk over hex texts is therefore the hex text of the round over bytes
(`weaveHexRound_bytesToHex`). Which characters are digits, and of what value, is said once (`hexValue_eq_some_iff`). -/

namespace Sys2Proof.Machine

open Sys2Proof.Claims

/-! ### Bytes to hex and back -/

/-- `40_codec_reference.md` R90: the digit written for a number is the one the list of digits has at its place. -/
theorem getElem?_lowerDigits {n : Nat} (hn : n < 16) : lowerDigits[n]? = some (hexDigit n) := by
  have hall : ∀ k : Fin 16, lowerDigits[k.1]? = some (hexDigit k.1) := by decide
  exact hall ⟨n, hn⟩

theorem high_nibble_lt (b : Byte) : b.toNat / 16 < 16 := by
  have := b.isLt
  omega

theorem low_nibble_lt (b : Byte) : b.toNat % 16 < 16 := Nat.mod_lt _ (by decide)

/-- `40_codec_reference.md` R92. -/
theorem hexToBytes_bytesToHex (upper : Bool) (bs : List Byte) : hexToBytes upper (bytesToHex bs) = some bs := by
  induction bs with
  | nil => rfl
  | cons b bs ih =>
    have hbyte : BitVec.ofNat 8 (16 * (b.toNat / 16) + b.toNat % 16) = b := by
      rw [Nat.div_add_mod, BitVec.ofNat_toNat, BitVec.setWidth_eq]
    rw [bytesToHex_cons, byteToHex, List.cons_append, List.cons_append, List.nil_append,
      hexToBytes_pair (hexValue_hexDigit _ _ (high_nibble_lt b)) (hexValue_hexDigit _ _ (low_nibble_lt b)), ih, hbyte]
    rfl

theorem length_bytesToHex (bs : List Byte) : (bytesToHex bs).length = 2 * bs.length := by
  simp [bytesToHex, byteToHex, Nat.mul_comm]

theorem mem_lowerDigits_of_mem_bytesToHex {bs : List Byte} {c : Char} (hc : c ∈ bytesToHex bs) : c ∈ lowerDigits := by
  obtain ⟨b, -, hcb⟩ := List.mem_flatMap.1 hc
  simp only [byteToHex, List.mem_cons, List.not_mem_nil, or_false] at hcb
  obtain rfl | rfl := hcb
  · exact List.mem_of_getElem? (getElem?_lowerDigits (high_nibble_lt b))
  · exact List.mem_of_getElem? (getElem?_lowerDigits (low_nibble_lt b))

/-- The text of the bytes from j on is the text from digit 2 * j on. -/
theorem drop_bytesToHex (bs : List Byte) (j : Nat) : (bytesToHex bs).drop (2 * j) = bytesToHex (bs.drop j) := by
  induction bs generalizing j with
  | nil => simp
  | cons b bs ih =>
    cases j with
    | zero => rfl
    | succ j =>
      rw [bytesToHex_cons, List.drop_succ_cons, ← ih]
      rfl

/-- `40_codec_reference.md` R90: where the two digits of byte j stand. -/
theorem getElem?_bytesToHex {bs : List Byte} {j : Nat} {b : Byte} (h : bs[j]? = some b) :
    (bytesToHex bs)[2 * j]? = some (hexDigit (b.toNat / 16)) ∧ (bytesToHex bs)[2 * j + 1]? = some (hexDigit (b.toNat % 16)) := by
  obtain ⟨hj, rfl⟩ := List.getElem?_eq_some_iff.1 h
  have hdigit (i : Nat) : (bytesToHex bs)[2 * j + i]? = (bytesToHex (bs[j] :: bs.drop (j + 1)))[i]? := by
    rw [← List.drop_eq_getElem_cons hj, ← drop_bytesToHex, List.getElem?_drop]
  exact ⟨hdigit 0, hdigit 1⟩

/-- Settles O22: each byte is written as the digits of its two nibbles. -/
theorem hexCodecRoundTrip : Obligations.HexCodecRoundTrip := by
  unfold Obligations.HexCodecRoundTrip
  refine ⟨hexToBytes_bytesToHex, fun bs => ⟨length_bytesToHex bs, fun c => mem_lowerDigits_of_mem_bytesToHex⟩,
    fun bs j b h => ?_, rfl, by decide⟩
  obtain ⟨hhigh, hlow⟩ := getElem?_bytesToHex h
  exact ⟨hhigh.trans (getElem?_lowerDigits (high_nibble_lt b)).symm, hlow.trans (getElem?_lowerDigits (low_nibble_lt b)).symm⟩

/-! ### The interleave through hex text -/

theorem bytesToHex_flatMap {α : Type} (l : List α) (f : α → List Byte) :
    bytesToHex (l.flatMap f) = l.flatMap fun a => bytesToHex (f a) := List.flatMap_assoc

/-- The pair of digits round r takes from the text of a lane is the text of the byte it takes from the lane. -/
theorem take_drop_bytesToHex (o : List Byte) (r : Nat) :
    ((bytesToHex o).drop (2 * r)).take 2 = bytesToHex o[r]?.toList := by
  rw [drop_bytesToHex]
  rcases lt_or_ge r o.length with hr | hr
  · rw [List.drop_eq_getElem_cons hr, List.getElem?_eq_getElem hr]
    rfl
  · rw [List.drop_of_length_le hr, List.getElem?_eq_none hr]
    rfl

theorem weaveHexRound_bytesToHex (os : List (List Byte)) (r : Nat) :
    weaveHexRound (os.map bytesToHex) r = bytesToHex (weaveRound os r) := by
  rw [weaveHexRound, weaveRound, List.filterMap_eq_flatMap_toList, bytesToHex_flatMap, List.flatMap_map]
  exact List.flatMap_congr fun o _ => take_drop_bytesToHex o r

/-- Settles O21: the walk over hex texts makes the text of what the walk over bytes makes, and that text reads back. -/
theorem hexInterleaveIsByteInterleave : Obligations.HexInterleaveIsByteInterleave := by
  unfold Obligations.HexInterleaveIsByteInterleave
  intro t os
  have htext : (List.range (weaveRounds t os)).flatMap (weaveHexRound (os.map bytesToHex)) = bytesToHex (weave t os) := by
    rw [weave, bytesToHex_flatMap]
    exact List.flatMap_congr fun r _ => weaveHexRound_bytesToHex os r
  rw [weaveHex, htext, hexToBytes_bytesToHex]

/-! ### What hexToBytes reads -/

/-- The uppercase digit of a number from 10 to 15. -/
theorem getElem?_upperDigits {n : Nat} (hlow : 10 ≤ n) (hn : n < 16) : upperDigits[n - 10]? = some (Char.ofNat (55 + n)) := by
  have hall : ∀ k : Fin 6, upperDigits[k.1]? = some (Char.ofNat (65 + k.1)) := by decide
  have hdigit := hall ⟨n - 10, by omega⟩
  rwa [show 65 + (n - 10) = 55 + n by omega] at hdigit

theorem hexValue_upperDigit {n : Nat} (hlow : 10 ≤ n) (hn : n < 16) : hexValue true (Char.ofNat (55 + n)) = some n := by
  have hall : ∀ k : Fin 6, hexValue true (Char.ofNat (65 + k.1)) = some (10 + k.1) := by decide
  have hdigit := hall ⟨n - 10, by omega⟩
  rwa [show 65 + (n - 10) = 55 + n by omega, show 10 + (n - 10) = n by omega] at hdigit

/-- A digit has a value below 16. -/
theorem digitOf_value_lt {upper : Bool} {c : Char} {n : Nat} (h : DigitOf upper c n) : n < 16 := by
  obtain h | ⟨-, -, h⟩ := h
  · exact (List.getElem?_eq_some_iff.1 h).1
  · have hlt : n - 10 < 6 := (List.getElem?_eq_some_iff.1 h).1
    omega

/-- `40_codec_reference.md` R91: the digits and their values. -/
theorem hexValue_eq_some_iff {upper : Bool} {c : Char} {n : Nat} : hexValue upper c = some n ↔ DigitOf upper c n := by
  constructor
  · intro h
    have hc : Char.ofNat c.toNat = c := Char.ofNat_toNat c
    unfold hexValue at h
    split_ifs at h with hdec hlower hupper
    · obtain rfl := Option.some.inj h
      refine .inl ?_
      rw [getElem?_lowerDigits (by omega), hexDigit, if_pos (by omega), Nat.add_sub_cancel' hdec.1, hc]
    · obtain rfl := Option.some.inj h
      refine .inl ?_
      rw [getElem?_lowerDigits (by omega), hexDigit, if_neg (by omega), Nat.add_sub_cancel' (by omega), hc]
    · obtain rfl := Option.some.inj h
      obtain ⟨hup, hfrom, hto⟩ := hupper
      refine .inr ⟨hup, by omega, ?_⟩
      rw [getElem?_upperDigits (by omega) (by omega), Nat.add_sub_cancel' (by omega), hc]
  · intro h
    have hn := digitOf_value_lt h
    obtain h | ⟨rfl, hlow, h⟩ := h
    · rw [getElem?_lowerDigits hn] at h
      obtain rfl := Option.some.inj h
      exact hexValue_hexDigit upper n hn
    · rw [getElem?_upperDigits hlow hn] at h
      obtain rfl := Option.some.inj h
      exact hexValue_upperDigit hlow hn

theorem exists_digitOf_iff {upper : Bool} {c : Char} :
    (∃ n, DigitOf upper c n) ↔ c ∈ lowerDigits ∨ upper = true ∧ c ∈ upperDigits := by
  rw [List.mem_iff_getElem?, List.mem_iff_getElem?]
  constructor
  · rintro ⟨n, h | ⟨hup, -, h⟩⟩
    · exact .inl ⟨n, h⟩
    · exact .inr ⟨hup, n - 10, h⟩
  · rintro (⟨n, h⟩ | ⟨hup, n, h⟩)
    · exact ⟨n, .inl h⟩
    · exact ⟨n + 10, .inr ⟨hup, Nat.le_add_left .., h⟩⟩

/-- `40_codec_reference.md` R91: the characters that are no digit. -/
theorem hexValue_eq_none_iff {upper : Bool} {c : Char} :
    hexValue upper c = none ↔ c ∉ lowerDigits ∧ (upper = true → c ∉ upperDigits) := by
  rw [← not_iff_not, ← ne_eq, Option.ne_none_iff_exists']
  simp only [hexValue_eq_some_iff, exists_digitOf_iff]
  tauto

/-- `40_codec_reference.md` R91: when hexToBytes fails. -/
theorem hexToBytes_eq_none_iff (upper : Bool) :
    ∀ cs, hexToBytes upper cs = none ↔ cs.length % 2 = 1 ∨ ∃ c ∈ cs, hexValue upper c = none
  | [] => by simp [hexToBytes]
  | [c] => by simp [hexToBytes]
  | h :: l :: rest => by
    rcases hh : hexValue upper h with _ | a
    · exact iff_of_true (by simp [hexToBytes, hh]) (.inr ⟨h, by simp, hh⟩)
    rcases hl : hexValue upper l with _ | b
    · exact iff_of_true (by simp [hexToBytes, hl]) (.inr ⟨l, by simp, hl⟩)
    rw [hexToBytes_pair hh hl, Option.map_eq_none_iff, hexToBytes_eq_none_iff upper rest]
    simp [hh, hl, Nat.add_assoc]

/-- `40_codec_reference.md` R91: how many bytes hexToBytes reads, and which. -/
theorem of_hexToBytes_eq_some {upper : Bool} : ∀ {cs : List Char} {bs : List Byte}, hexToBytes upper cs = some bs →
    cs.length = 2 * bs.length ∧ ∀ (j : Nat) (h l : Char) (a b : Nat), cs[2 * j]? = some h → cs[2 * j + 1]? = some l →
      hexValue upper h = some a → hexValue upper l = some b → bs[j]? = some (BitVec.ofNat 8 (16 * a + b))
  | [], bs, hread => by
    obtain rfl : [] = bs := Option.some.inj hread
    exact ⟨rfl, nofun⟩
  | [c], bs, hread => nomatch hread
  | h :: l :: rest, bs, hread => by
    rcases hh : hexValue upper h with _ | a
    · simp [hexToBytes, hh] at hread
    rcases hl : hexValue upper l with _ | b
    · simp [hexToBytes, hl] at hread
    rw [hexToBytes_pair hh hl, Option.map_eq_some_iff] at hread
    obtain ⟨bs, hrest, rfl⟩ := hread
    obtain ⟨hlength, hbytes⟩ := of_hexToBytes_eq_some hrest
    refine ⟨by simp only [List.length_cons]; omega, fun j h' l' a' b' hh' hl' ha' hb' => ?_⟩
    cases j with
    | zero =>
      obtain rfl : h = h' := Option.some.inj hh'
      obtain rfl : l = l' := Option.some.inj hl'
      obtain rfl : a = a' := Option.some.inj (hh.symm.trans ha')
      obtain rfl : b = b' := Option.some.inj (hl.symm.trans hb')
      rfl
    | succ j => exact hbytes j h' l' a' b' hh' hl' ha' hb'

/-! ### Digit strings and raw text -/

/-- `40_codec_reference.md` R94: the number of the character of a byte. -/
theorem toNat_charOfByte (b : Byte) : (Char.ofNat b.toNat).toNat = b.toNat := by
  have hvalid : b.toNat.isValidChar := .inl (by have := b.isLt; omega)
  rw [Char.toNat_ofNat, if_pos hvalid]

theorem textToBytes_bytesToText (bs : List Byte) : textToBytes (bytesToText bs) = some bs := by
  induction bs with
  | nil => rfl
  | cons b bs ih =>
    have hbyte : b.toNat ≤ 255 := Nat.le_of_lt_succ b.isLt
    unfold textToBytes bytesToText at ih ⊢
    rw [List.map_cons, List.mapM_cons, ih, toNat_charOfByte, if_pos hbyte]
    simp

/-- Settles O23: failure and pairs through `hexValue_eq_none_iff` and `hexValue_eq_some_iff`; the rest is arithmetic of lengths and
of character numbers. -/
theorem hostCodecContracts : Obligations.HostCodecContracts := by
  unfold Obligations.HostCodecContracts
  refine ⟨fun upper cs => ?fails, fun upper cs bs hread => ?pairs, fun upper => ?examples, fun bits => ?aligned,
    fun bs => ⟨textToBytes_bytesToText bs, ?numbers⟩⟩
  case fails =>
    rw [hexToBytes_eq_none_iff]
    simp only [hexValue_eq_none_iff]
  case pairs =>
    obtain ⟨hlength, hbytes⟩ := of_hexToBytes_eq_some hread
    refine ⟨hlength, fun j h l a b hh hl ha hb => ?_⟩
    have hbyte : 16 * a + b < 256 := by
      have := digitOf_value_lt ha
      have := digitOf_value_lt hb
      omega
    rw [hbytes j h l a b hh hl (hexValue_eq_some_iff.2 ha) (hexValue_eq_some_iff.2 hb), Option.map_some, BitVec.toNat_ofNat,
      Nat.mod_eq_of_lt hbyte]
  case examples => cases upper <;> decide
  case aligned =>
    refine ⟨?_, (8 - bits.length % 8) % 8, Nat.mod_lt _ (by decide), rfl⟩
    rw [bitsToByteAligned, List.length_append, List.length_replicate]
    omega
  case numbers =>
    rw [bytesToText, List.map_map]
    exact List.map_congr_left fun b _ => toNat_charOfByte b

end Sys2Proof.Machine
